-- ==== Sys2Proof/Word.lean ====
section
/-! DEFINITION. The widths of the engine's quantities (spec rules R7, R13, R47, R48). -/

namespace Sys2Proof

/-- A state word, an accumulator, a response's data: 32 bits (R7, R23). -/
abbrev Word := BitVec 32

/-- A coefficient word of CA or CB: 16 bits, read as signed (R7, R9). -/
abbrev Coef := BitVec 16

/-- An input or output sample: 16 bits, read as signed (R7). -/
abbrev Sample := BitVec 16

/-- A command word `CMD[47:0]` (R47). -/
abbrev CmdWord := BitVec 48

/-- A response word `RSP[39:0]` (R48). -/
abbrev RspWord := BitVec 40

end Sys2Proof
end

