-- ==== Sys2Proof/Syntax.lean ====
section
/-! DEFINITION. The six operations of spec/opcode_table.json, and the words they are read from. -/

namespace Sys2Proof

/-- One constructor per row of the opcode table. A state word index `k` is a mathematical integer
(R17, R50); the data inputs of the two MAC operations are not encoded (R55), so they stand beside
the operation select. -/
inductive Instr where
  /-- `FILT s` (R61). -/
  | filt (s : Sample)
  /-- `INIT` (R102). -/
  | init
  /-- `RDS k` (R103). -/
  | rds (k : Nat)
  /-- `WRS k, v` (R104). -/
  | wrs (k : Nat) (v : Word)
  /-- MACB on the data inputs `a`, `x`, `c` (R90). -/
  | macb (a x : Word) (c : Coef)
  /-- MACA on the data inputs `a`, `x`, `c` (R91). -/
  | maca (a x : Word) (c : Coef)
  deriving DecidableEq, Repr

/-- What the decoder reads: a command word of the host port (R47), or the MAC unit's operation
select with its three data inputs (R55). -/
inductive Encoded where
  | command (w : CmdWord)
  | macOp (op : BitVec 1) (a x : Word) (c : Coef)
  deriving DecidableEq, Repr

/-- Why a command word is a reserved encoding: the four cases (a) to (d) of R52. -/
inductive Reserved where
  /-- R52 (a): `op` is 0x00 or 0x05 to 0xFF. -/
  | unassignedOp
  /-- R52 (b): FILT with `idx` or `data[31:16]` not 0. -/
  | filtField
  /-- R52 (c): INIT with `idx` or `data` not 0. -/
  | initField
  /-- R52 (d): RDS with `data` not 0. -/
  | rdsField
  deriving DecidableEq, Repr

/-- A line of the assembler of R56 and R57: a decimal operand is an integer, a hex operand the bits
it writes. -/
inductive AsmLine where
  | filtDec (s : Int)
  | filtHex (s : BitVec 16)
  | init
  | rds (k : Nat)
  | wrsDec (k : Nat) (v : Int)
  | wrsHex (k : Nat) (v : BitVec 32)
  | word (w : CmdWord)
  deriving DecidableEq, Repr

end Sys2Proof
end

