-- ==== Sys2Proof/WellFormed.lean ====
section
/-! DEFINITION. Which instructions the encoding can express (R50). -/

namespace Sys2Proof

/-- A state word index fits the 8-bit `idx` field (R47, R50). -/
abbrev indexFits (k : Nat) : Prop := k < 256

/-- R50: `k` is an integer in [0, 255]; every other operand fills its field. -/
def WellFormed : Instr → Bool
  | .filt _ => true
  | .init => true
  | .rds k => decide (indexFits k)
  | .wrs k _ => decide (indexFits k)
  | .macb _ _ _ => true
  | .maca _ _ _ => true

end Sys2Proof
end

