-- ==== Sys2Proof/Decode.lean ====
section
/-! DEFINITION. Decoding (R47 to R55), the encoder written from the same tables, the opcode map as
data (R51), and the assembler (R56, R57). -/

namespace Sys2Proof

/-- `op` = CMD[47:40] (R47). -/
def opField (w : CmdWord) : BitVec 8 := w.extractLsb' 40 8

/-- `idx` = CMD[39:32] (R47). -/
def idxField (w : CmdWord) : BitVec 8 := w.extractLsb' 32 8

/-- `data[31:16]` = CMD[31:16] (R49). -/
def dataHi (w : CmdWord) : BitVec 16 := w.extractLsb' 16 16

/-- `data[15:0]` = CMD[15:0] (R49). -/
def dataLo (w : CmdWord) : BitVec 16 := w.extractLsb' 0 16

/-- The decoding algorithm of R54; its last line is split by the cases of R52. -/
def decodeCommand (w : CmdWord) : Except Reserved Instr :=
  if opField w = 0x01#8 then
    if idxField w = 0#8 ∧ dataHi w = 0#16 then .ok (.filt (dataLo w)) else .error .filtField
  else if opField w = 0x02#8 then
    if idxField w = 0#8 ∧ dataHi w = 0#16 ∧ dataLo w = 0#16 then .ok .init else .error .initField
  else if opField w = 0x03#8 then
    if dataHi w = 0#16 ∧ dataLo w = 0#16 then .ok (.rds (idxField w).toNat) else .error .rdsField
  else if opField w = 0x04#8 then
    .ok (.wrs (idxField w).toNat (dataHi w ++ dataLo w))
  else .error .unassignedOp

/-- R55: `mac_op` = 0 is MACB, 1 is MACA; both values of the bit are defined. -/
def decodeMacOp (op : BitVec 1) (a x : Word) (c : Coef) : Instr :=
  if op = 0#1 then .macb a x c else .maca a x c

/-- The decoder, total on every word of either kind. -/
def decode : Encoded → Except Reserved Instr
  | .command w => decodeCommand w
  | .macOp op a x c => .ok (decodeMacOp op a x c)

/-- A command word from its fields (R47, R49). -/
def cmdWord (op idx : BitVec 8) (hi lo : BitVec 16) : CmdWord := op ++ idx ++ hi ++ lo

/-- The encoder: formats CMD-S, CMD-0, CMD-K, CMD-KD of R49 with the opcodes of R51, and the MACOP
select of R55. -/
def encode : Instr → Encoded
  | .filt s => .command (cmdWord 0x01#8 0#8 0#16 s)
  | .init => .command (cmdWord 0x02#8 0#8 0#16 0#16)
  | .rds k => .command (cmdWord 0x03#8 (BitVec.ofNat 8 k) 0#16 0#16)
  | .wrs k v =>
    .command (cmdWord 0x04#8 (BitVec.ofNat 8 k) (v.extractLsb' 16 16) (v.extractLsb' 0 16))
  | .macb a x c => .macOp 0#1 a x c
  | .maca a x c => .macOp 1#1 a x c

/-- The match and mask columns of the opcode map of R51 for a command; the MAC operations have no
command word (R55). -/
def opcodeRow : Instr → Option (CmdWord × CmdWord)
  | .filt _ => some (0x010000000000#48, 0xFFFFFFFF0000#48)
  | .init => some (0x020000000000#48, 0xFFFFFFFFFFFF#48)
  | .rds _ => some (0x030000000000#48, 0xFF00FFFFFFFF#48)
  | .wrs _ _ => some (0x040000000000#48, 0xFF0000000000#48)
  | .macb _ _ _ => none
  | .maca _ _ _ => none

/-- The four (match, mask) pairs of R51, in the table's order. -/
def opcodeMap : List (CmdWord × CmdWord) :=
  [ (0x010000000000#48, 0xFFFFFFFF0000#48)
  , (0x020000000000#48, 0xFFFFFFFFFFFF#48)
  , (0x030000000000#48, 0xFF00FFFFFFFF#48)
  , (0x040000000000#48, 0xFF0000000000#48) ]

/-- R51: the word selects the row whose `(W and mask) = match`. -/
def matchesRow (w : CmdWord) (row : CmdWord × CmdWord) : Bool := w &&& row.2 == row.1

/-- R56, the range of a decimal sample. -/
abbrev sampleFits (s : Int) : Prop := -32768 ≤ s ∧ s ≤ 32767

/-- R56, the range of a decimal state word. -/
abbrev wordFits (v : Int) : Prop := -2147483648 ≤ v ∧ v ≤ 2147483647

/-- The assembler of R56 ("or" is bitwise or of 48-bit values) and the raw word of R57; none where
an operand is outside the range R56 gives it. -/
def assemble : AsmLine → Option CmdWord
  | .filtDec s =>
    if sampleFits s then some (0x010000000000#48 ||| (BitVec.ofInt 16 s).setWidth 48) else none
  | .filtHex s => some (0x010000000000#48 ||| s.setWidth 48)
  | .init => some 0x020000000000#48
  | .rds k => if indexFits k then some (0x030000000000#48 ||| BitVec.ofNat 48 k <<< 32) else none
  | .wrsDec k v =>
    if indexFits k ∧ wordFits v then
      some (0x040000000000#48 ||| BitVec.ofNat 48 k <<< 32 ||| (BitVec.ofInt 32 v).setWidth 48)
    else none
  | .wrsHex k v =>
    if indexFits k then some (0x040000000000#48 ||| BitVec.ofNat 48 k <<< 32 ||| v.setWidth 48)
    else none
  | .word w => some w

/-- The command a line of R56 stands for; a raw word stands for whatever it decodes to. -/
def AsmLine.instr : AsmLine → Option Instr
  | .filtDec s => some (.filt (BitVec.ofInt 16 s))
  | .filtHex s => some (.filt s)
  | .init => some .init
  | .rds k => some (.rds k)
  | .wrsDec k v => some (.wrs k (BitVec.ofInt 32 v))
  | .wrsHex k v => some (.wrs k v)
  | .word w => (decodeCommand w).toOption

/-- What a table word of `nbits` bits is to the decoder: a row of at most one byte is a MACOP select
bit with zero data inputs, any other the command word, zero above `nbits`. A number with a bit the
instruction does not have is no word (log 7, DESIGN CHOICE). -/
def tableWord (nbits w : Nat) : Option Encoded :=
  if nbits ≤ 8 then
    if w < 2 then some (.macOp (BitVec.ofNat 1 w) 0#32 0#32 0#16) else none
  else if w < 2 ^ 48 then some (.command (BitVec.ofNat 48 w)) else none

/-- The instruction the decoder reads from a table word; none where it refuses. -/
def decodeTableWord (nbits w : Nat) : Option Instr :=
  match tableWord nbits w with
  | some e => (decode e).toOption
  | none => none

end Sys2Proof
end

