-- ==== Sys2Proof/Config.lean ====
section
/-! DEFINITION. The parameters of an engine instance, fixed when it is built (R9 to R11). -/

namespace Sys2Proof

/-- The triple (N, CA, CB) of R9: the number of sections, the feedback table and the feedforward
table. An instance's tables are read-only memory (R36, R37). -/
structure Config where
  n  : Nat
  ca : List Coef
  cb : List Coef
  deriving DecidableEq, Repr

/-- R10 and R9: 1 <= N <= 128, CA has 2·N words, CB has 3·N words. -/
abbrev Config.WF (c : Config) : Prop :=
  (1 ≤ c.n ∧ c.n ≤ 128) ∧ c.ca.length = 2 * c.n ∧ c.cb.length = 3 * c.n

/-- The reference configuration REF of R11, the only concrete one the source gives. -/
def Config.ref : Config :=
  { n := 1
    ca := [BitVec.ofInt 16 (-32197), 0#16]
    cb := [18287#16, 18287#16, 0#16] }

end Sys2Proof
end

