-- ==== Sys2Proof/Machine/State.lean ====
section
/-! DEFINITION. The state of one engine instance (R23, R30, R33), the host port's events (R44,
R124), and the reasons a step can stop. -/

namespace Sys2Proof.Machine

/-- The outcome a command reports in its response (R112). -/
inductive Status where
  | ok
  /-- Raised by the decoder for a reserved encoding (R110); an ordinary outcome, never a stop. -/
  | illegalCmd
  /-- Raised by RDS and WRS for `k >= 2·N` (R111); an ordinary outcome, never a stop. -/
  | indexRange
  deriving DecidableEq, Repr

/-- The input pins of the host port as sampled on one rising edge of `clk` (R44). -/
structure PortSample where
  rst      : Bool
  cmdValid : Bool
  cmd      : CmdWord
  rspReady : Bool
  deriving DecidableEq, Repr

/-- One thing that happens to the engine. -/
inductive Input where
  /-- A rising clock edge with these pins (R44). -/
  | edge (p : PortSample)
  /-- The MAC unit is driven, on its own, with this select and these data inputs (R55; log 5). -/
  | mac (op : BitVec 1) (a x : Word) (c : Coef)
  deriving DecidableEq, Repr

/-- The handshake state of the host port (R30, R44): idle, or one command outstanding whose
response `rsp` is presented once `left` more edges have passed. -/
inductive Port where
  | idle
  | busy (left : Nat) (rsp : RspWord)
  deriving DecidableEq, Repr

/-- The state of one engine instance. -/
structure State where
  /-- The instance's parameters (R9); no step changes them (log 1). -/
  cfg    : Config
  /-- The state register file S[0 .. 2N-1] (R23). -/
  S      : List Word
  /-- The busy indication and the response not yet taken (R30, R44). -/
  port   : Port
  /-- The MODEL's own free values: `LAT - 1` of the commands to come, oldest first; used up, LAT is
  1 (R12, R128; log 3, DESIGN CHOICE). -/
  lat    : List Nat
  /-- The MODEL's own: the output `r` of the MAC unit when last driven on its own (R55; log 5). -/
  macR   : Word
  /-- The MODEL's own: what the outside will do, oldest first (R44, R113; log 4). -/
  inputs : List Input
  deriving DecidableEq, Repr

/-- Why the machine stops with a fault. -/
inductive Fault where
  /-- Raised by a meaning that reads or writes S, CA or CB outside the list State holds. The source
  calls a state buffer of the wrong length undefined behaviour that must be rejected (R26, R109);
  no well-formed state raises it. Safe: the model stops (log 6). -/
  | outOfBounds
  deriving DecidableEq, Repr

/-- Why the model refuses. -/
inductive Refusal where
  /-- Raised by `exec` for an instruction that has no meaning yet; no arm does. Safe. -/
  | notModelled (mnemonic : String)
  /-- Raised by `step` for a configuration outside R10, which R118 lets a model refuse. Safe
  (log 6). -/
  | configOutOfRange
  deriving DecidableEq, Repr

/-- R33, R124: the instance with parameters `c` right after reset, with nothing presented to it. -/
def State.resetOf (c : Config) : State :=
  { cfg := c
    S := List.replicate (2 * c.n) 0#32
    port := .idle
    lat := []
    macR := 0#32
    inputs := [] }

/-- The machine right after reset: the reference instance of R11 (log 1, DESIGN CHOICE: the spec
leaves N, CA and CB to the instance). -/
def State.reset : State := State.resetOf Config.ref

end Sys2Proof.Machine
end

