-- ==== Sys2Proof/Machine/Flags.lean ====
section
/-! DEFINITION. The engine has no flags (R31); what reports a command's outcome is the status byte of
its response (R48, R112). -/

namespace Sys2Proof.Machine

/-- The status codes of R112. -/
def statusCode : Status → BitVec 8
  | .ok => 0x00#8
  | .illegalCmd => 0x01#8
  | .indexRange => 0x02#8

/-- A response word: `status` = RSP[39:32], `rdata` = RSP[31:0] (R48). -/
def rspWord (st : Status) (d : Word) : RspWord := statusCode st ++ d

/-- RSP[39:32] (R48). -/
def rspStatus (r : RspWord) : BitVec 8 := r.extractLsb' 32 8

/-- RSP[31:0] (R48). -/
def rspData (r : RspWord) : Word := r.extractLsb' 0 32

/-- R48, R112: a response the engine can produce. -/
abbrev rspLegal (r : RspWord) : Prop :=
  (rspStatus r = 0x00#8 ∨ rspStatus r = 0x01#8 ∨ rspStatus r = 0x02#8) ∧
    (rspStatus r ≠ 0x00#8 → rspData r = 0#32)

/-- `cmd_ready` (R44): no command is outstanding; 1 also while a reset is held (log 13, DESIGN
CHOICE). -/
def State.cmdReady (s : State) : Bool :=
  match s.port with
  | .idle => true
  | .busy _ _ => false

/-- `rsp_valid` (R44): the response is ready and not yet taken. -/
def State.rspValid (s : State) : Bool :=
  match s.port with
  | .busy 0 _ => true
  | .busy (_ + 1) _ => false
  | .idle => false

/-- The response of the outstanding command, if any. -/
def Port.outstanding : Port → Option RspWord
  | .idle => none
  | .busy _ r => some r

/-- A response not yet taken is one the engine can produce (R48, R112). -/
def Port.legal : Port → Bool
  | .idle => true
  | .busy _ r => decide (rspLegal r)

end Sys2Proof.Machine
end

