-- ==== Sys2Proof/Machine/Operands.lean ====
section
/-! DEFINITION. Operand readings: shifts, extension, wrapping and the half split (R14 to R16, R84),
and the range check of a state word index (R111). -/

namespace Sys2Proof.Machine

/-- R15: arithmetic shift right, floor division of the signed value by 2^k. -/
def asr {w : Nat} (v : BitVec w) (k : Nat) : BitVec w := v.sshiftRight k

/-- R15: shift left; the bits shifted out at the top are lost. -/
def lsl {w : Nat} (v : BitVec w) (k : Nat) : BitVec w := v <<< k

/-- R16: sign extension of 16 bits to 32. -/
def sext32 (v : BitVec 16) : Word := v.signExtend 32

/-- R16: zero extension of 16 bits to 32. -/
def zext32 (v : BitVec 16) : Word := v.setWidth 32

/-- R84: `hi`, the upper half of the word read as signed. -/
def hiHalf (x : Word) : Word := asr x 16

/-- R84: `lo`, the lower half of the word read as unsigned. -/
def loHalf (x : Word) : Word := zext32 (x.extractLsb' 0 16)

/-- R111: the index is outside 0 .. 2·N-1. -/
abbrev indexOutOfRange (c : Config) (k : Nat) : Prop := 2 * c.n ≤ k

end Sys2Proof.Machine
end

