-- ==== Sys2Proof/Machine/Ops.lean ====
section
/-! DEFINITION. The operations every meaning is built from: access to the three storage spaces
(R17, R34 to R37), ending a command (R19), and hardware reset (R124). -/

namespace Sys2Proof.Machine

/-- `S[k]` (R17); none outside the register file. -/
def readS (S : List Word) (k : Nat) : Option Word := S[k]?

/-- `S[k] <- v` (R17); none outside the register file. -/
def writeS (S : List Word) (k : Nat) (v : Word) : Option (List Word) :=
  if k < S.length then some (S.set k v) else none

/-- `CA[k]` (R17, R36). -/
def readCA (c : Config) (k : Nat) : Option Coef := c.ca[k]?

/-- `CB[k]` (R17, R37). -/
def readCB (c : Config) (k : Nat) : Option Coef := c.cb[k]?

/-- Every word of the register file 0 (R33, R102). -/
def zeroS (c : Config) : List Word := List.replicate (2 * c.n) 0#32

/-- `respond` of R19: the command ends with this status and data; its response is presented LAT
edges later (R44), LAT - 1 being the next free value (log 3). -/
def respond (st : Status) (d : Word) (s : State) : State :=
  { s with port := .busy (s.lat.headD 0) (rspWord st d), lat := s.lat.tail }

/-- `raise` of R19, the engine's only exception (R115): nothing is saved, no state is written,
control goes nowhere; the response carries the status with data 0 (R112). There is no return from
it (R117). -/
def raiseStatus (st : Status) (s : State) : State := respond st 0#32 s

/-- R124, R125: every S[k] becomes 0, a command in progress is abandoned, a response not yet taken
is discarded, the engine is idle. -/
def hardwareReset (s : State) : State := { s with S := zeroS s.cfg, port := .idle }

end Sys2Proof.Machine
end

