-- ==== Sys2Proof/Machine/Mac.lean ====
section
/-! DEFINITION. The fixed_point_mac_unit: MultB, MultA in the split form the source prescribes, and
the two MAC operations (R83 to R91). -/

namespace Sys2Proof.Machine

/-- The high-half product `ph` of R85 and R87. -/
def highProduct (x : Word) (c : Coef) : Word := hiHalf x * sext32 c

/-- The low-half product `pl` of R85 and R87. -/
def lowProduct (x : Word) (c : Coef) : Word := loHalf x * sext32 c

/-- R85, the feedforward multiply. -/
def multB (x : Word) (c : Coef) : Word :=
  asr (highProduct x c + asr (lowProduct x c) 16) 5

/-- R87, the feedback multiply. -/
def multA (x : Word) (c : Coef) : Word :=
  lsl (highProduct x c) 1 + asr (lowProduct x c) 15

/-- R90: `mac_op` = 0. -/
def macbValue (a x : Word) (c : Coef) : Word := a + multB x c

/-- R91: `mac_op` = 1. -/
def macaValue (a x : Word) (c : Coef) : Word := a - multA x c

/-- MACB on the unit's data inputs (R90); the unit is combinational, so only its output `r`
changes (R83). -/
def execMacb (a x : Word) (c : Coef) (s : State) : Host.Outcome State Fault Refusal :=
  .next { s with macR := macbValue a x c }

/-- MACA on the unit's data inputs (R91); the unit is combinational, so only its output `r`
changes (R83). -/
def execMaca (a x : Word) (c : Coef) (s : State) : Host.Outcome State Fault Refusal :=
  .next { s with macR := macaValue a x c }

end Sys2Proof.Machine
end

