-- ==== Sys2Proof/Machine/Filter.lean ====
section
/-! DEFINITION. The iir_section_pipeline step (R73 to R76, R79) and the FILT command (R61 to R69). -/

namespace Sys2Proof.Machine

/-- R62: the sample widened into the accumulator. -/
def widen (s : Sample) : Word := lsl (sext32 s) 15

/-- R74: the section step. Both new state words are computed from the old ones before either is
written (R75). None where an index is outside its space. -/
def sectionStep (c : Config) (S : List Word) (i : Nat) (acc : Word) : Option (Word × List Word) := do
  let s0 ← readS S (2 * i)
  let s1 ← readS S (2 * i + 1)
  let b0 ← readCB c (3 * i)
  let b1 ← readCB c (3 * i + 1)
  let b2 ← readCB c (3 * i + 2)
  let a1 ← readCA c (2 * i)
  let a2 ← readCA c (2 * i + 1)
  let accA := multB acc b0 + s0
  let s0new := (s1 + multB acc b1) - multA accA a1
  let s1new := multB acc b2 - multA accA a2
  let S' ← writeS S (2 * i) s0new
  let S'' ← writeS S' (2 * i + 1) s1new
  pure (accA, S'')

/-- R64: sections 0 to `m - 1` in that order, each handing its output accumulator to the next. -/
def cascade (c : Config) (S : List Word) (acc : Word) : Nat → Option (Word × List Word)
  | 0 => some (acc, S)
  | m + 1 => do
    let (accM, SM) ← cascade c S acc m
    sectionStep c SM m accM

/-- R66, R67: arithmetic shift right by 16, then the low 16 bits. -/
def outputSample (acc : Word) : Sample := (asr acc 16).extractLsb' 0 16

/-- R61: the output sample and the new state register file. -/
def filterSample (c : Config) (S : List Word) (x : Sample) : Option (Sample × List Word) := do
  let (acc, S') ← cascade c S (widen x) c.n
  pure (outputSample acc, S')

/-- FILT (R61); the response is OK with the sign-extended output sample (R69). -/
def execFilt (x : Sample) (s : State) : Host.Outcome State Fault Refusal :=
  match filterSample s.cfg s.S x with
  | some (out, S') => .next (respond .ok (sext32 out) { s with S := S' })
  | none => .fault .outOfBounds

end Sys2Proof.Machine
end

