-- ==== Sys2Proof/Machine/Lifecycle.lean ====
section
/-! DEFINITION. The state lifecycle commands INIT, RDS and WRS (R102 to R104). -/

namespace Sys2Proof.Machine

/-- INIT (R102). -/
def execInit (s : State) : Host.Outcome State Fault Refusal :=
  .next (respond .ok 0#32 { s with S := zeroS s.cfg })

/-- RDS k (R103): the range check comes before any access (R111). -/
def execRds (k : Nat) (s : State) : Host.Outcome State Fault Refusal :=
  if indexOutOfRange s.cfg k then .next (raiseStatus .indexRange s)
  else
    match readS s.S k with
    | some v => .next (respond .ok v s)
    | none => .fault .outOfBounds

/-- WRS k, v (R104): the range check comes before any access (R111). -/
def execWrs (k : Nat) (v : Word) (s : State) : Host.Outcome State Fault Refusal :=
  if indexOutOfRange s.cfg k then .next (raiseStatus .indexRange s)
  else
    match writeS s.S k v with
    | some S' => .next (respond .ok 0#32 { s with S := S' })
    | none => .fault .outOfBounds

end Sys2Proof.Machine
end

