-- ==== Sys2Proof/Machine/Dispatch.lean ====
section
/-! DEFINITION. One arm per instruction, each a direct call of its meaning. -/

namespace Sys2Proof.Machine

def exec (i : Instr) (s : State) : Host.Outcome State Fault Refusal :=
  match i with
  | .filt x => Sys2Proof.Machine.execFilt x s
  | .init => Sys2Proof.Machine.execInit s
  | .rds k => Sys2Proof.Machine.execRds k s
  | .wrs k v => Sys2Proof.Machine.execWrs k v s
  | .macb a x c => Sys2Proof.Machine.execMacb a x c s
  | .maca a x c => Sys2Proof.Machine.execMaca a x c s

end Sys2Proof.Machine
end

