-- ==== Sys2Proof/Machine/Port.lean ====
section
/-! DEFINITION. The host port (R44): what one rising clock edge does, and how a command word is taken
in. -/

namespace Sys2Proof.Machine

/-- The pins of a host that does nothing (log 4). -/
def quietSample : PortSample :=
  { rst := false, cmdValid := false, cmd := 0#48, rspReady := false }

/-- The next input and the state without it; with nothing listed the host does nothing (log 4). -/
def nextInput (s : State) : Input × State :=
  match s.inputs with
  | [] => (.edge quietSample, s)
  | e :: rest => (e, { s with inputs := rest })

/-- An accepted command word: decode first, and a reserved encoding is answered ILLEGAL_CMD with no
other effect (R52, R110, R114). -/
def acceptCommand (w : CmdWord) (s : State) : Host.Outcome State Fault Refusal :=
  match decodeCommand w with
  | .ok i => exec i s
  | .error _ => .next (raiseStatus .illegalCmd s)

/-- One rising edge (R44, R124): reset overrides everything, a handshake on that edge too (log 13); an idle engine accepts a valid command;
a busy one counts down to its response and then holds it until the host takes it. -/
def portEdge (p : PortSample) (s : State) : Host.Outcome State Fault Refusal :=
  if p.rst then .next (hardwareReset s)
  else
    match s.port with
    | .idle => if p.cmdValid then acceptCommand p.cmd s else .next s
    | .busy 0 _ => if p.rspReady then .next { s with port := .idle } else .next s
    | .busy (left + 1) r => .next { s with port := .busy left r }

/-- What one input does to the engine. -/
def stepInput (e : Input) (s : State) : Host.Outcome State Fault Refusal :=
  match e with
  | .edge p => portEdge p s
  | .mac op a x c => exec (decodeMacOp op a x c) s

/-- A host that presents this command word (log 8). -/
def presentCommand (w : CmdWord) : Input :=
  .edge { rst := false, cmdValid := true, cmd := w, rspReady := false }

/-- The engine made ready for a table word and the word presented to it (log 8): for a command, no
response outstanding; for a MACOP select bit, the unit driven with zero data inputs. -/
def presentTableWord (s : State) (nbits w : Nat) : State :=
  if nbits ≤ 8 then
    { s with inputs := .mac (BitVec.ofNat 1 w) 0#32 0#32 0#16 :: s.inputs }
  else
    { s with port := .idle, inputs := presentCommand (BitVec.ofNat 48 w) :: s.inputs }

end Sys2Proof.Machine
end

