-- ==== Sys2Proof/Machine/Step.lean ====
section
/-! DEFINITION. One step: the next input of an instance whose configuration R10 allows. -/

namespace Sys2Proof.Machine

/-- One rising clock edge of the host port, or one drive of the MAC unit. A configuration outside
R10 is refused (R118). -/
def step (s : State) : Host.Outcome State Fault Refusal :=
  if s.cfg.WF then stepInput (nextInput s).1 (nextInput s).2 else .refused .configOutOfRange

/-- The state in which the very next step runs the table word (log 8). -/
def State.withFetchWord (s : State) (nbits w : Nat) : State := presentTableWord s nbits w

end Sys2Proof.Machine
end

