-- ==== Sys2Proof/Machine/Asm.lean ====
section
/-! DEFINITION. The text of R56 and R57: one command a line, and the line a response is written as.
Text is a list of characters. -/

namespace Sys2Proof.Machine

/-- R56: a comment runs from `;` to the end of the line. -/
def stripComment (line : List Char) : List Char := line.takeWhile (fun ch => ch != ';')

/-- The words of a line; a comma is a word of its own. -/
def lineWords : List Char → List (List Char)
  | [] => [[]]
  | ch :: rest =>
    let ws := lineWords rest
    if ch = ' ' then [] :: ws
    else if ch = ',' then [] :: [','] :: ws
    else (ch :: ws.headD []) :: ws.tail

/-- The words of a line less the empty ones between separators. -/
def tokens (line : List Char) : List (List Char) :=
  (lineWords (stripComment line)).filter (fun w => !w.isEmpty)

/-- A decimal digit. -/
def decDigit (ch : Char) : Option Nat :=
  if 48 ≤ ch.toNat ∧ ch.toNat ≤ 57 then some (ch.toNat - 48) else none

/-- A hex digit, either case. -/
def hexDigit (ch : Char) : Option Nat :=
  if 48 ≤ ch.toNat ∧ ch.toNat ≤ 57 then some (ch.toNat - 48)
  else if 65 ≤ ch.toNat ∧ ch.toNat ≤ 70 then some (ch.toNat - 55)
  else if 97 ≤ ch.toNat ∧ ch.toNat ≤ 102 then some (ch.toNat - 87)
  else none

/-- Digits read most significant first, onto the value read so far. -/
def readDigits (base : Nat) (digit : Char → Option Nat) (soFar : Nat) : List Char → Option Nat
  | [] => some soFar
  | ch :: rest =>
    match digit ch with
    | some d => readDigits base digit (soFar * base + d) rest
    | none => none

/-- A decimal natural number: at least one digit. -/
def readNat (w : List Char) : Option Nat :=
  if w = [] then none else readDigits 10 decDigit 0 w

/-- A decimal integer, with an optional minus sign. -/
def readInt : List Char → Option Int
  | '-' :: rest => (readNat rest).map fun v => -(v : Int)
  | w => (readNat w).map fun v => (v : Int)

/-- R56: a hex literal `0x...` of exactly `digits` digits; underscores are only for reading. -/
def readHex (digits : Nat) : List Char → Option Nat
  | '0' :: 'x' :: rest =>
    let ds := rest.filter (fun ch => ch != '_')
    if ds.length = digits then readDigits 16 hexDigit 0 ds else none
  | _ => none

/-- R56, R57: the operands of one line. -/
def parseTokens : List (List Char) → Option AsmLine
  | [['F', 'I', 'L', 'T'], s] =>
    match readHex 4 s with
    | some h => some (.filtHex (BitVec.ofNat 16 h))
    | none => (readInt s).map .filtDec
  | [['I', 'N', 'I', 'T']] => some .init
  | [['R', 'D', 'S'], k] => (readNat k).map .rds
  | [['W', 'R', 'S'], k, [','], v] =>
    match readNat k, readHex 8 v, readInt v with
    | some k, some h, _ => some (.wrsHex k (BitVec.ofNat 32 h))
    | some k, none, some z => some (.wrsDec k z)
    | _, none, none => none
    | none, _, _ => none
  | [['.', 'w', 'o', 'r', 'd'], h] => (readHex 12 h).map fun v => .word (BitVec.ofNat 48 v)
  | _ => none

/-- The command word a line of text assembles to; none where it is no command line. -/
def assembleText (line : List Char) : Option CmdWord :=
  match parseTokens (tokens line) with
  | some l => assemble l
  | none => none

/-- Decimal digits, least significant last, by structural recursion on `fuel`. -/
def decDigits : Nat → Nat → List Char
  | 0, _ => []
  | fuel + 1, v =>
    (if v < 10 then [] else decDigits fuel (v / 10)) ++ [Char.ofNat (48 + v % 10)]

/-- A 32-bit word as a signed decimal. -/
def signedText (d : Word) : List Char :=
  if d.toInt < 0 then '-' :: decDigits 10 d.toInt.natAbs else decDigits 10 d.toInt.natAbs

/-- R56: a response is written `-> OK d`, `-> ILLEGAL_CMD` or `-> INDEX_RANGE`, here with d as a
signed decimal; none for a status the engine never produces (R112). -/
def responseText (r : RspWord) : Option (List Char) :=
  if rspStatus r = statusCode .ok then
    some (['-', '>', ' ', 'O', 'K', ' '] ++ signedText (rspData r))
  else if rspStatus r = statusCode .illegalCmd then
    some ['-', '>', ' ', 'I', 'L', 'L', 'E', 'G', 'A', 'L', '_', 'C', 'M', 'D']
  else if rspStatus r = statusCode .indexRange then
    some ['-', '>', ' ', 'I', 'N', 'D', 'E', 'X', '_', 'R', 'A', 'N', 'G', 'E']
  else none

end Sys2Proof.Machine
end

