-- ==== Sys2Proof/Machine/System.lean ====
section
/-! DEFINITION. Several engines side by side (R122): the product of their states, one of which moves
at a time. -/

namespace Sys2Proof.Machine

/-- Engine `j` of the system takes one step; none where there is no such engine or it stops. -/
def stepEngine (j : Nat) (sys : List State) : Option (List State) :=
  match sys[j]? with
  | none => none
  | some s =>
    match step s with
    | .next t => some (sys.set j t)
    | .fault _ => none
    | .refused _ => none

/-- An interleaving of the engines' steps, first engine number first. -/
def runSystem : List Nat → List State → Option (List State)
  | [], sys => some sys
  | j :: js, sys =>
    match stepEngine j sys with
    | some sys' => runSystem js sys'
    | none => none

end Sys2Proof.Machine
end

