-- ==== Sys2Proof/Safety.lean ====
section
/-! DEFINITION. What a well-formed state is, and what the host sees of a run: the commands accepted
and the responses taken (R44), beside the transaction-level machine of R118. -/

namespace Sys2Proof.Machine

/-- R26: the configuration is one R10 allows and S has 2·N words; R48, R112: a response not yet taken
is one the engine can produce. -/
abbrev State.Inv (s : State) : Prop :=
  s.cfg.WF ∧ s.S.length = 2 * s.cfg.n ∧ s.port.legal = true

/-- The command the engine accepts on the next step, if any (R44); none on an edge with `rst` = 1 (log
13, DESIGN CHOICE). -/
def acceptsNow (s : State) : Option CmdWord :=
  match (nextInput s).1 with
  | .edge p => if !p.rst && p.cmdValid && s.cmdReady then some p.cmd else none
  | .mac _ _ _ _ => none

/-- The response the host takes on the next step, if any (R44); none on an edge with `rst` = 1 (log
13, DESIGN CHOICE). -/
def takesNow (s : State) : Option RspWord :=
  match (nextInput s).1 with
  | .edge p => if !p.rst && p.rspReady && s.rspValid then s.port.outstanding else none
  | .mac _ _ _ _ => none

/-- An input that does not assert reset. -/
def Input.noReset : Input → Bool
  | .edge p => !p.rst
  | .mac _ _ _ _ => true

/-- `m` steps with what the host sees of them: the commands accepted and the responses taken, each
in order, and the final state; none where a step stops. -/
def observe : Nat → State → Option (List CmdWord × List RspWord × State)
  | 0, s => some ([], [], s)
  | m + 1, s =>
    match step s with
    | .next t =>
      match observe m t with
      | some (cs, rs, u) => some ((acceptsNow s).toList ++ cs, (takesNow s).toList ++ rs, u)
      | none => none
    | .fault _ => none
    | .refused _ => none

/-- The function of R118, from the meanings: one command word on a state register file gives the new
register file and the response word. -/
def transact (c : Config) (S : List Word) (w : CmdWord) : Option (List Word × RspWord) :=
  match acceptCommand w { State.resetOf c with S := S } with
  | .next t => t.port.outstanding.map fun r => (t.S, r)
  | .fault _ => none
  | .refused _ => none

/-- A sequence of commands, one response each, in order (R41). -/
def transactAll (c : Config) (S : List Word) : List CmdWord → Option (List Word × List RspWord)
  | [] => some (S, [])
  | w :: ws =>
    match transact c S w with
    | none => none
    | some (S', r) =>
      match transactAll c S' ws with
      | none => none
      | some (S'', rs) => some (S'', r :: rs)

/-- A sequence of instructions, each executed to completion in order (R41). -/
def execAll : List Instr → State → Host.Outcome State Fault Refusal
  | [], s => .next s
  | i :: is, s =>
    match exec i s with
    | .next t => execAll is t
    | .fault f => .fault f
    | .refused r => .refused r

end Sys2Proof.Machine
end

