-- ==== Sys2Proof/Certificates/Slice0/Obligations.lean ====
section
/-! DEFINITION. The statements for the provers, each about the machine the spec's rules describe. -/

namespace Sys2Proof.Spec

/-- floor(sint(x) · sint(c) / 2^21), the closed form of R86. -/
def floorB (x : Word) (c : Coef) : Int := x.toInt * c.toInt / 2 ^ 21

/-- floor(sint(x) · sint(c) / 2^15), the unwrapped value of R88. -/
def floorA (x : Word) (c : Coef) : Int := x.toInt * c.toInt / 2 ^ 15

/-- The seven words section `i` reads (R73, R79). -/
structure SectionReads where
  s0 : Word
  s1 : Word
  b0 : Coef
  b1 : Coef
  b2 : Coef
  a1 : Coef
  a2 : Coef

/-- `d` holds the words at the indices of R79. -/
def SectionReads.At (d : SectionReads) (c : Config) (S : List Word) (i : Nat) : Prop :=
  S[2 * i]? = some d.s0 ∧ S[2 * i + 1]? = some d.s1 ∧
  c.cb[3 * i]? = some d.b0 ∧ c.cb[3 * i + 1]? = some d.b1 ∧ c.cb[3 * i + 2]? = some d.b2 ∧
  c.ca[2 * i]? = some d.a1 ∧ c.ca[2 * i + 1]? = some d.a2

/-- The section output over the integers (R76). -/
def SectionReads.accOut (d : SectionReads) (acc : Word) : Word :=
  BitVec.ofInt 32 (floorB acc d.b0 + d.s0.toInt)

/-- The new first delay register over the integers (R76). -/
def SectionReads.s0New (d : SectionReads) (acc : Word) : Word :=
  BitVec.ofInt 32 (d.s1.toInt + floorB acc d.b1 - floorA (d.accOut acc) d.a1)

/-- The new second delay register over the integers (R76). -/
def SectionReads.s1New (d : SectionReads) (acc : Word) : Word :=
  BitVec.ofInt 32 (floorB acc d.b2 - floorA (d.accOut acc) d.a2)

/-- The outcome `o` of a command from `s` is a next state in which S is `S'`, the response `r` is
outstanding, and nothing else has changed; after how many edges the response is presented is left
free (R128). That S already holds the whole effect while the response is outstanding is the model's
choice (log 2). -/
def EndsWith (o : Host.Outcome Machine.State Machine.Fault Machine.Refusal) (s : Machine.State)
    (S' : List Word) (r : RspWord) : Prop :=
  ∃ left lat', o = .next { s with S := S', port := .busy left r, lat := lat' }

end Sys2Proof.Spec

open Sys2Proof Sys2Proof.Machine Sys2Proof.Spec

/-! ### Shifts, extension and the MAC unit -/

/-- R15 and R16: `asr` is floor division by 2^k, `lsl` wraps, `sext` and `zext` keep the signed and
the unsigned value. -/
def Obligations.ShiftsAndExtensionsReadAsIntegers : Prop :=
  (∀ (w : Nat) (v : BitVec w) (k : Nat), k < w → (asr v k).toInt = v.toInt / 2 ^ k) ∧
  (∀ (w : Nat) (v : BitVec w) (k : Nat), k < w → lsl v k = BitVec.ofInt w (v.toInt * 2 ^ k)) ∧
  (∀ v : BitVec 16, (sext32 v).toInt = v.toInt) ∧
  (∀ v : BitVec 16, (zext32 v).toNat = v.toNat) ∧
  (asr (BitVec.ofInt 32 (-1)) 1).toInt = -1

/-- R84: the halves and the word they reconstruct. -/
def Obligations.HalvesReconstructTheWord : Prop :=
  ∀ x : Word,
    (hiHalf x).toInt = (x.extractLsb' 16 16).toInt ∧
    (loHalf x).toInt = ((x.extractLsb' 0 16).toNat : Int) ∧
    (-32768 ≤ (hiHalf x).toInt ∧ (hiHalf x).toInt ≤ 32767) ∧
    (0 ≤ (loHalf x).toInt ∧ (loHalf x).toInt ≤ 65535) ∧
    x.toInt = (hiHalf x).toInt * 65536 + (loHalf x).toInt

/-- R89: the ranges of the intermediates; no partial product overflows, and the doubled high product
of MultA does exactly for hi = c = -32768. -/
def Obligations.PartialProductsFitIn32Bits : Prop :=
  ∀ (x : Word) (c : Coef),
    (highProduct x c).toInt = (hiHalf x).toInt * c.toInt ∧
    (lowProduct x c).toInt = (loHalf x).toInt * c.toInt ∧
    (-1073709056 ≤ (highProduct x c).toInt ∧ (highProduct x c).toInt ≤ 1073741824) ∧
    (-2147450880 ≤ (lowProduct x c).toInt ∧ (lowProduct x c).toInt ≤ 2147385345) ∧
    (-32768 ≤ (asr (lowProduct x c) 16).toInt ∧ (asr (lowProduct x c) 16).toInt ≤ 32766) ∧
    (highProduct x c + asr (lowProduct x c) 16).toInt =
      (highProduct x c).toInt + (asr (lowProduct x c) 16).toInt ∧
    (-1073741824 ≤ (highProduct x c + asr (lowProduct x c) 16).toInt ∧
      (highProduct x c + asr (lowProduct x c) 16).toInt ≤ 1073774590) ∧
    (-65535 ≤ (asr (lowProduct x c) 15).toInt ∧ (asr (lowProduct x c) 15).toInt ≤ 65533) ∧
    (-2147418112 ≤ 2 * (highProduct x c).toInt ∧ 2 * (highProduct x c).toInt ≤ 2147483648) ∧
    ((lsl (highProduct x c) 1).toInt ≠ 2 * (highProduct x c).toInt ↔
      (hiHalf x).toInt = -32768 ∧ c.toInt = -32768) ∧
    ((hiHalf x).toInt = -32768 ∧ c.toInt = -32768 →
      (lsl (highProduct x c) 1).toInt = -2147483648) ∧
    (-2147483647 ≤ 2 * (highProduct x c).toInt + (asr (lowProduct x c) 15).toInt ∧
      2 * (highProduct x c).toInt + (asr (lowProduct x c) 15).toInt ≤ 2147483648) ∧
    (2147483647 < 2 * (highProduct x c).toInt + (asr (lowProduct x c) 15).toInt ↔
      x = 0x80000000#32 ∧ c = 0x8000#16)

/-- R86: MultB is the exact floor, never wraps, and its bounds are reached where the rule says. -/
def Obligations.MultBIsFloorOfExactProduct : Prop :=
  (∀ (x : Word) (c : Coef), (multB x c).toInt = x.toInt * c.toInt / 2 ^ 21) ∧
  (∀ (x : Word) (c : Coef),
    -33554432 ≤ (multB x c).toInt ∧ (multB x c).toInt ≤ 33554432) ∧
  (∀ (x : Word) (c : Coef),
    (multB x c).toInt = 33554432 ↔ x.toInt = -2147483648 ∧ c.toInt = -32768) ∧
  (∀ (x : Word) (c : Coef),
    (multB x c).toInt = -33554432 ↔ c.toInt = -32768 ∧ 2147483648 - 63 ≤ x.toInt) ∧
  (multB 0x80000000#32 32767#16).toInt = -33553408 ∧
  (∀ c : Coef, multB 0#32 c = 0#32) ∧
  (∀ x : Word, multB x 0#16 = 0#32) ∧
  (∀ (x : Word) (c : Coef), 0 ≤ x.toInt * c.toInt → x.toInt * c.toInt < 2 ^ 21 →
    multB x c = 0#32) ∧
  (∀ (x : Word) (c : Coef), -(2 ^ 21) ≤ x.toInt * c.toInt → x.toInt * c.toInt < 0 →
    (multB x c).toInt = -1)

/-- R88: MultA is the wrapped floor; it wraps for exactly one operand pair. -/
def Obligations.MultAIsWrappedFloor : Prop :=
  (∀ (x : Word) (c : Coef), multA x c = BitVec.ofInt 32 (x.toInt * c.toInt / 2 ^ 15)) ∧
  (∀ (x : Word) (c : Coef),
    -2147483647 ≤ x.toInt * c.toInt / 2 ^ 15 ∧ x.toInt * c.toInt / 2 ^ 15 ≤ 2147483648) ∧
  (∀ (x : Word) (c : Coef),
    (multA x c).toInt ≠ x.toInt * c.toInt / 2 ^ 15 ↔ x = 0x80000000#32 ∧ c = 0x8000#16) ∧
  multA 0x80000000#32 0x8000#16 = 0x80000000#32 ∧
  ((highProduct 0x80000000#32 0x8000#16).toInt = 2 ^ 30 ∧
    (lsl (highProduct 0x80000000#32 0x8000#16) 1).toInt = -(2 ^ 31) ∧
    asr (lowProduct 0x80000000#32 0x8000#16) 15 = 0#32) ∧
  (∀ (x : Word) (c : Coef),
    (lsl (highProduct x c) 1).toInt ≠ 2 * (highProduct x c).toInt ↔
      c = 0x8000#16 ∧ 0x80000000 ≤ x.toNat ∧ x.toNat ≤ 0x8000FFFF) ∧
  (∀ x : Word, 0x80000001 ≤ x.toNat → x.toNat ≤ 0x8000FFFF →
    (multA x 0x8000#16).toInt = 2147483648 - (loHalf x).toInt) ∧
  (∀ c : Coef, multA 0#32 c = 0#32) ∧
  (∀ x : Word, multA x 0#16 = 0#32) ∧
  (∀ x : Word, (multA x 1#16).toInt = x.toInt / 32768) ∧
  (∀ x : Word, multA x 0x8000#16 = BitVec.ofInt 32 (-x.toInt)) ∧
  (multA 1#32 (BitVec.ofInt 16 (-1))).toInt = -1 ∧
  (multA (BitVec.ofInt 32 (-1)) 1#16).toInt = -1 ∧
  multA 1#32 1#16 = 0#32 ∧
  multA (BitVec.ofInt 32 (-1)) (BitVec.ofInt 16 (-1)) = 0#32

/-- R93: the results at every sign combination, and that neither primitive is an odd function. The
one pair at which MultA wraps (R88) is left out of its sign rows. -/
def Obligations.PrimitivesRoundTowardMinusInfinity : Prop :=
  (∀ (x : Word) (c : Coef), 0 < x.toInt * c.toInt →
    0 ≤ (multB x c).toInt ∧ (multB x c).toInt * 2 ^ 21 ≤ x.toInt * c.toInt) ∧
  (∀ (x : Word) (c : Coef), x.toInt * c.toInt < 0 →
    (multB x c).toInt ≤ -1 ∧ (multB x c).toInt * 2 ^ 21 ≤ x.toInt * c.toInt ∧
    ((multB x c).toInt * 2 ^ 21 = x.toInt * c.toInt ↔ (2 ^ 21 : Int) ∣ x.toInt * c.toInt)) ∧
  (∀ (x : Word) (c : Coef), ¬(x = 0x80000000#32 ∧ c = 0x8000#16) → 0 < x.toInt * c.toInt →
    0 ≤ (multA x c).toInt ∧ (multA x c).toInt * 2 ^ 15 ≤ x.toInt * c.toInt) ∧
  (∀ (x : Word) (c : Coef), x.toInt * c.toInt < 0 →
    (multA x c).toInt ≤ -1 ∧ (multA x c).toInt * 2 ^ 15 ≤ x.toInt * c.toInt ∧
    ((multA x c).toInt * 2 ^ 15 = x.toInt * c.toInt ↔ (2 ^ 15 : Int) ∣ x.toInt * c.toInt)) ∧
  (∀ (x : Word) (c : Coef), x ≠ 0x80000000#32 →
    (multB (-x) c).toInt =
      if (2 ^ 21 : Int) ∣ x.toInt * c.toInt then -(multB x c).toInt else -(multB x c).toInt - 1) ∧
  (∀ (x : Word) (c : Coef), x ≠ 0x80000000#32 →
    (multA (-x) c).toInt =
      if (2 ^ 15 : Int) ∣ x.toInt * c.toInt then -(multA x c).toInt else -(multA x c).toInt - 1)

/-- R95: on at least 48 bits one wide multiply, one arithmetic shift and the final wrap give the same
bits; the wrap matters only for MultA's one pair. -/
def Obligations.WideMultiplyGivesTheSameBits : Prop :=
  ∀ (w : Nat), 48 ≤ w → ∀ (x : Word) (c : Coef),
    (x.signExtend w * c.signExtend w).toInt = x.toInt * c.toInt ∧
    multB x c = (asr (x.signExtend w * c.signExtend w) 21).setWidth 32 ∧
    multA x c = (asr (x.signExtend w * c.signExtend w) 15).setWidth 32 ∧
    (multB x c).toInt = (asr (x.signExtend w * c.signExtend w) 21).toInt ∧
    ((multA x c).toInt ≠ (asr (x.signExtend w * c.signExtend w) 15).toInt ↔
      x = 0x80000000#32 ∧ c = 0x8000#16)

/-- R90, R83: MACB completes in every state with r = wrap32(a + floor(x·c / 2^21)), and changes
nothing but the unit's output. -/
def Obligations.MacbAddsTheFlooredProduct : Prop :=
  (∀ (a x : Word) (c : Coef) (s : State),
    exec (.macb a x c) s = .next { s with macR := BitVec.ofInt 32 (a.toInt + floorB x c) }) ∧
  (∀ s : State, exec (.macb 0x7FFFFFFF#32 0x00200000#32 1#16) s =
    .next { s with macR := 0x80000000#32 }) ∧
  (∀ (x : Word) (c : Coef) (s : State),
    exec (.macb 0#32 x c) s = .next { s with macR := multB x c }) ∧
  (∀ s : State, exec (.macb 0#32 0x3FFF8000#32 18287#16) s = .next { s with macR := 9362658#32 })

/-- R91, R83: MACA completes in every state with r = wrap32(a - floor(x·c / 2^15)), and changes
nothing but the unit's output. -/
def Obligations.MacaSubtractsTheFlooredProduct : Prop :=
  (∀ (a x : Word) (c : Coef) (s : State),
    exec (.maca a x c) s = .next { s with macR := BitVec.ofInt 32 (a.toInt - floorA x c) }) ∧
  (∀ s : State, exec (.maca 0x80000000#32 32768#32 1#16) s =
    .next { s with macR := 0x7FFFFFFF#32 }) ∧
  (∀ (a : Word) (s : State), exec (.maca a 0x80000000#32 0x8000#16) s =
    .next { s with macR := a ^^^ 0x80000000#32 }) ∧
  (∀ s : State, exec (.maca 9362658#32 9362658#32 (BitVec.ofInt 16 (-32197))) s =
    .next { s with macR := 18562167#32 })

/-! ### The section step and FILT -/

/-- R74, with R73: the section step completes, computes its three values from the old state words,
and writes its two state words and nothing else. -/
def Obligations.SectionStepFollowsItsPseudocode : Prop :=
  ∀ (c : Config) (S : List Word) (i : Nat) (acc : Word),
    c.WF → S.length = 2 * c.n → i < c.n →
    ∃ d : SectionReads, d.At c S i ∧
      ∃ accA s0new s1new : Word, ∃ S' : List Word,
        accA = multB acc d.b0 + d.s0 ∧
        s0new = (d.s1 + multB acc d.b1) - multA accA d.a1 ∧
        s1new = multB acc d.b2 - multA accA d.a2 ∧
        sectionStep c S i acc = some (accA, S') ∧
        S'.length = S.length ∧ S'[2 * i]? = some s0new ∧ S'[2 * i + 1]? = some s1new ∧
        ∀ k, k ≠ 2 * i → k ≠ 2 * i + 1 → S'[k]? = S[k]?

/-- R76: over the integers the section step wraps each of its three results modulo 2^32. -/
def Obligations.SectionStepOverTheIntegers : Prop :=
  ∀ (c : Config) (S : List Word) (i : Nat) (acc : Word) (d : SectionReads),
    d.At c S i →
    sectionStep c S i acc =
      some (d.accOut acc, (S.set (2 * i) (d.s0New acc)).set (2 * i + 1) (d.s1New acc))

/-- R77: five operations of the MAC unit, in the order of the reference micro-schedule, give the
section step's output and its two new state words. -/
def Obligations.FiveMacOperationsMakeASectionStep : Prop :=
  ∀ (s : State) (i : Nat) (acc : Word) (d : SectionReads), d.At s.cfg s.S i →
    ∃ t1 t2 t3 t4 t5 : State,
      exec (.macb d.s0 acc d.b0) s = .next t1 ∧
      exec (.macb d.s1 acc d.b1) t1 = .next t2 ∧
      exec (.maca t2.macR t1.macR d.a1) t2 = .next t3 ∧
      exec (.macb 0#32 acc d.b2) t3 = .next t4 ∧
      exec (.maca t4.macR t1.macR d.a2) t4 = .next t5 ∧
      sectionStep s.cfg s.S i acc =
        some (t1.macR, (s.S.set (2 * i) t3.macR).set (2 * i + 1) t5.macR) ∧
      t5 = { s with macR := t5.macR }

/-- R62: the widened sample is s · 2^15, exactly. -/
def Obligations.WideningNeverWraps : Prop :=
  ∀ x : Sample,
    (widen x).toInt = x.toInt * 32768 ∧
    (-1073741824 ≤ (widen x).toInt ∧ (widen x).toInt ≤ 1073709056) ∧
    (widen x).extractLsb' 0 15 = 0#15 ∧
    (widen x).getLsbD 31 = (widen x).getLsbD 30 ∧
    widen x = x.extractLsb' 15 1 ++ x ++ 0#15

/-- R66 and R67: the output sample is floor(ACC / 2^16), which is ACC[31:16]; it never wraps. -/
def Obligations.OutputSampleIsTheUpperHalf : Prop :=
  (∀ acc : Word,
    (asr acc 16).toInt = acc.toInt / 65536 ∧
    (-32768 ≤ (asr acc 16).toInt ∧ (asr acc 16).toInt ≤ 32767) ∧
    outputSample acc = acc.extractLsb' 16 16 ∧
    (outputSample acc).toInt = (asr acc 16).toInt) ∧
  (asr (BitVec.ofInt 32 (-1)) 16).toInt = -1 ∧
  (asr 65535#32 16).toInt = 0 ∧
  (asr 65536#32 16).toInt = 1

/-- R61, R64, R69 (completion of FILT): in every well-formed state FILT completes. There is a chain
of accumulators from the widened sample through sections 0 to N-1; each section's new state words
are the recurrence of R76 on its OLD words; the response is OK with the sign-extended upper half of
the last accumulator; nothing else changes. -/
def Obligations.FiltRunsTheCascade : Prop :=
  ∀ (s : State) (x : Sample), s.Inv →
    ∃ (acc : Nat → Word) (S' : List Word),
      acc 0 = BitVec.ofInt 32 (x.toInt * 32768) ∧
      S'.length = s.S.length ∧
      (∀ i, i < s.cfg.n → ∃ d : SectionReads, d.At s.cfg s.S i ∧
        acc (i + 1) = d.accOut (acc i) ∧
        S'[2 * i]? = some (d.s0New (acc i)) ∧
        S'[2 * i + 1]? = some (d.s1New (acc i))) ∧
      EndsWith (exec (.filt x) s) s S' (0x00#8 ++ ((acc s.cfg.n).extractLsb' 16 16).signExtend 32)

/-- R71: from a zeroed state any number of zero samples returns 0 and leaves S zero, for every
configuration; and the two REF states the rule names are left as they are by `FILT 0`. -/
def Obligations.ZeroInputKeepsAZeroedState : Prop :=
  (∀ s : State, s.Inv → s.S = List.replicate (2 * s.cfg.n) 0#32 →
    EndsWith (exec (.filt 0#16) s) s s.S 0#40 ∧
    ∀ m, ∃ t, execAll (List.replicate (m + 1) (.filt 0#16)) s = .next t ∧
      t.S = s.S ∧ t.port.outstanding = some 0#40) ∧
  (∀ s : State, s.cfg = Config.ref → s.S = [57#32, 0#32] ∨ s.S = [1#32, 0#32] →
    EndsWith (exec (.filt 0#16) s) s s.S 0#40)

/-- 95_test_vectors.md V38: on REF every S[0] in 1 .. 57 is a fixed point of `FILT 0`, and 58 is
not. -/
def Obligations.RefSmallPositiveStatesNeverDecay : Prop :=
  (∀ (s : State) (v : Nat), s.cfg = Config.ref → 1 ≤ v → v ≤ 57 →
    s.S = [BitVec.ofNat 32 v, 0#32] →
    EndsWith (exec (.filt 0#16) s) s s.S 0#40) ∧
  (∀ s : State, s.cfg = Config.ref → s.S = [58#32, 0#32] →
    EndsWith (exec (.filt 0#16) s) s [57#32, 0#32] 0#40)

/-- R70, R30: what a command word does to S, and its response, depend on the word, the configuration
and S only. -/
def Obligations.CommandsDependOnlyOnConfigAndS : Prop :=
  ∀ (w : CmdWord) (s t s' : State), t.cfg = s.cfg → t.S = s.S →
    acceptCommand w s = .next s' →
    ∃ t', acceptCommand w t = .next t' ∧ t'.S = s'.S ∧
      t'.port.outstanding = s'.port.outstanding

/-! ### The lifecycle commands -/

/-- R102: INIT zero-fills S and answers OK 0 in every state and leaves the configuration and the
register file of hardware reset; afterwards every RDS in range reads 0; the word 0x020000000000 is
INIT; a word with op 0x02 and any other bit set is ILLEGAL_CMD and zeroes nothing. -/
def Obligations.InitZeroFillsTheState : Prop :=
  ∀ s : State,
    EndsWith (exec .init s) s (List.replicate (2 * s.cfg.n) 0#32) 0#40 ∧
    (∀ t, exec .init s = .next t →
      t.cfg = s.cfg ∧ t.S = (State.resetOf s.cfg).S ∧
      ∀ k, k < 2 * s.cfg.n → EndsWith (exec (.rds k) t) t t.S 0#40) ∧
    decodeCommand 0x020000000000#48 = .ok .init ∧
    (∀ w : CmdWord, opField w = 0x02#8 → w ≠ 0x020000000000#48 →
      EndsWith (acceptCommand w s) s s.S 0x0100000000#40)

/-- R103: RDS k answers OK S[k] for k < 2·N and INDEX_RANGE otherwise; S is not changed; with N = 128
every k in 0 .. 255 is answered OK; k is the idx field of a word of op 0x03 with data 0. -/
def Obligations.RdsReadsOneStateWord : Prop :=
  ∀ (s : State) (k : Nat), s.Inv →
    (k < 2 * s.cfg.n →
      ∃ v, s.S[k]? = some v ∧ EndsWith (exec (.rds k) s) s s.S (0x00#8 ++ v)) ∧
    (2 * s.cfg.n ≤ k → EndsWith (exec (.rds k) s) s s.S 0x0200000000#40) ∧
    (s.cfg.n = 128 → k ≤ 255 →
      ∃ v, s.S[k]? = some v ∧ EndsWith (exec (.rds k) s) s s.S (0x00#8 ++ v)) ∧
    (k ≤ 255 → decodeCommand (0x03#8 ++ BitVec.ofNat 8 k ++ 0#32) = .ok (.rds k))

/-- R104: WRS k, v writes S[k] and no other word and answers OK 0 for k < 2·N; otherwise INDEX_RANGE
and nothing is written; k is the idx field and v the data of a word of op 0x04. -/
def Obligations.WrsWritesOneStateWord : Prop :=
  ∀ (s : State) (k : Nat) (v : Word), s.Inv →
    (k < 2 * s.cfg.n →
      ∃ S', EndsWith (exec (.wrs k v) s) s S' 0#40 ∧ S'.length = s.S.length ∧
        S'[k]? = some v ∧ ∀ j, j ≠ k → S'[j]? = s.S[j]?) ∧
    (2 * s.cfg.n ≤ k → EndsWith (exec (.wrs k v) s) s s.S 0x0200000000#40) ∧
    (k ≤ 255 → decodeCommand (0x04#8 ++ BitVec.ofNat 8 k ++ v) = .ok (.wrs k v))

/-- R43: a read returns the value of the latest write to that word. -/
def Obligations.RdsReturnsTheLatestWrite : Prop :=
  ∀ (s t : State) (k j : Nat) (v : Word), s.Inv → k < 2 * s.cfg.n → j < 2 * s.cfg.n →
    exec (.wrs k v) s = .next t →
    ∃ old u, s.S[j]? = some old ∧ exec (.rds j) t = .next u ∧
      u.port.outstanding = some (0x00#8 ++ (if j = k then v else old))

/-- R105: writing back every word read from a state restores S, whatever the engine did between. -/
def Obligations.SnapshotAndRestore : Prop :=
  ∀ s t : State, s.Inv → t.Inv → t.cfg = s.cfg →
    ∃ u, execAll (s.S.zipIdx.map fun p => Instr.wrs p.2 p.1) t = .next u ∧
      u.S = s.S ∧ u.cfg = s.cfg

/-! ### Encoding -/

/-- Decode and encode agree on every well-formed instruction (R47 to R51, R54, R55). -/
def Obligations.DecodeEncodeRoundTrip : Prop :=
  ∀ i : Instr, WellFormed i = true → decode (encode i) = .ok i

/-- Every word has one meaning: what a command word (R51, R52) or a MAC select with its data inputs
(R55) decodes to is well formed and encodes to that word. -/
def Obligations.DecodedWordIsItsEncoding : Prop :=
  ∀ (e : Encoded) (i : Instr), decode e = .ok i → WellFormed i = true ∧ encode i = e

/-- R51: the decoder selects the row whose (W and mask) = match, the rows are disjoint, and a word
of each row's pattern is that row's command with the operands of the pattern's letters. -/
def Obligations.DecoderFollowsTheOpcodeMap : Prop :=
  opcodeMap = [(0x010000000000#48, 0xFFFFFFFF0000#48), (0x020000000000#48, 0xFFFFFFFFFFFF#48),
    (0x030000000000#48, 0xFF00FFFFFFFF#48), (0x040000000000#48, 0xFF0000000000#48)] ∧
  (∀ s : Sample, decodeCommand (0x01#8 ++ 0#8 ++ 0#16 ++ s) = .ok (.filt s)) ∧
  decodeCommand (0x02#8 ++ 0#40) = .ok .init ∧
  (∀ k : BitVec 8, decodeCommand (0x03#8 ++ k ++ 0#32) = .ok (.rds k.toNat)) ∧
  (∀ (k : BitVec 8) (v : Word), decodeCommand (0x04#8 ++ k ++ v) = .ok (.wrs k.toNat v)) ∧
  (∀ (w : CmdWord) (i : Instr), decodeCommand w = .ok i →
    ∃ row ∈ opcodeMap, opcodeRow i = some row ∧ matchesRow w row = true) ∧
  (∀ (w : CmdWord) (row : CmdWord × CmdWord), row ∈ opcodeMap → matchesRow w row = true →
    ∃ i, decodeCommand w = .ok i ∧ opcodeRow i = some row) ∧
  (∀ (w : CmdWord) (r1 r2 : CmdWord × CmdWord), r1 ∈ opcodeMap → r2 ∈ opcodeMap →
    matchesRow w r1 = true → matchesRow w r2 = true → r1 = r2)

/-- R52: exactly the words of cases (a) to (d) are reserved; each is answered ILLEGAL_CMD with rdata
0 and no other effect; WRS has no reserved field; the all-zero word is reserved. -/
def Obligations.ReservedEncodingsAreIllegal : Prop :=
  (∀ w : CmdWord, (∃ r, decodeCommand w = .error r) ↔
    (opField w = 0x00#8 ∨ 5 ≤ (opField w).toNat) ∨
    (opField w = 0x01#8 ∧ (idxField w ≠ 0#8 ∨ dataHi w ≠ 0#16)) ∨
    (opField w = 0x02#8 ∧ (idxField w ≠ 0#8 ∨ dataHi w ≠ 0#16 ∨ dataLo w ≠ 0#16)) ∨
    (opField w = 0x03#8 ∧ (dataHi w ≠ 0#16 ∨ dataLo w ≠ 0#16))) ∧
  (∀ (w : CmdWord) (s : State) (r : Reserved), decodeCommand w = .error r →
    EndsWith (acceptCommand w s) s s.S 0x0100000000#40) ∧
  (∀ w : CmdWord, opField w = 0x04#8 → ∃ i, decodeCommand w = .ok i) ∧
  (∃ r, decodeCommand 0#48 = .error r)

/-- R58: the worked encodings. -/
def Obligations.WorkedEncodingsDecode : Prop :=
  decodeCommand 0x010000007FFF#48 = .ok (.filt 32767#16) ∧
  decodeCommand 0x01000000FFFF#48 = .ok (.filt (BitVec.ofInt 16 (-1))) ∧
  decodeCommand 0x010000008000#48 = .ok (.filt (BitVec.ofInt 16 (-32768))) ∧
  decodeCommand 0x010000000000#48 = .ok (.filt 0#16) ∧
  decodeCommand 0x020000000000#48 = .ok .init ∧
  decodeCommand 0x030100000000#48 = .ok (.rds 1) ∧
  decodeCommand 0x04007FFFFFFF#48 = .ok (.wrs 0 0x7FFFFFFF#32) ∧
  decodeCommand 0x0401FFFFFFFF#48 = .ok (.wrs 1 (BitVec.ofInt 32 (-1))) ∧
  decodeCommand 0x000000000000#48 = .error .unassignedOp ∧
  decodeCommand 0x050000000000#48 = .error .unassignedOp ∧
  decodeCommand 0x0100FFFFFFFF#48 = .error .filtField ∧
  decodeCommand 0x010100000000#48 = .error .filtField ∧
  decodeCommand 0x020000000001#48 = .error .initField ∧
  decodeCommand 0x030000000001#48 = .error .rdsField

/-- R48 and R59: a response word's fields hold its status code and data, and the worked examples. -/
def Obligations.ResponseFieldsHoldStatusAndData : Prop :=
  (∀ (st : Status) (d : Word),
    rspStatus (rspWord st d) = statusCode st ∧ rspData (rspWord st d) = d) ∧
  rspWord .ok (sext32 142#16) = 0x000000008E#40 ∧
  rspWord .ok (sext32 (BitVec.ofInt 16 (-3))) = 0x00FFFFFFFD#40 ∧
  rspWord .ok 0x011B3C77#32 = 0x00011B3C77#40 ∧
  rspWord .ok 0#32 = 0x0000000000#40 ∧
  rspWord .illegalCmd 0#32 = 0x0100000000#40 ∧
  rspWord .indexRange 0#32 = 0x0200000000#40

/-- R56 and R57: an assembler line that is a command encodes exactly when its operands are in range,
and then its word decodes to that command; a raw word is itself (that `.word` may hold a command's
word too is the model's choice, log 11: R57 speaks of words that are no command). -/
def Obligations.AssembledLinesDecodeToTheirCommand : Prop :=
  (∀ (l : AsmLine) (w : CmdWord) (i : Instr), (∀ v, l ≠ .word v) →
    assemble l = some w → l.instr = some i → decodeCommand w = .ok i) ∧
  (∀ s : Int, (assemble (.filtDec s)).isSome ↔ -32768 ≤ s ∧ s ≤ 32767) ∧
  (∀ k : Nat, (assemble (.rds k)).isSome ↔ k ≤ 255) ∧
  (∀ (k : Nat) (v : Int), (assemble (.wrsDec k v)).isSome ↔
    k ≤ 255 ∧ -2147483648 ≤ v ∧ v ≤ 2147483647) ∧
  (∀ (k : Nat) (v : BitVec 32), (assemble (.wrsHex k v)).isSome ↔ k ≤ 255) ∧
  (∀ s : BitVec 16, (assemble (.filtHex s)).isSome) ∧
  (assemble .init).isSome ∧
  (∀ w : CmdWord, assemble (.word w) = some w)

/-! ### Errors and totality -/

/-- R110 to R112, R114, R115: in every well-formed state every command word completes with one
status, chosen in the order decode, range check, OK; and a command that does not end in OK changes
nothing but the port. -/
def Obligations.OneStatusInFixedOrder : Prop :=
  ∀ (s : State) (w : CmdWord), s.Inv →
    ∃ (t : State) (r : RspWord),
      acceptCommand w s = .next t ∧ t.port.outstanding = some r ∧ rspLegal r ∧
      (rspStatus r = 0x01#8 ↔ ∃ e, decodeCommand w = .error e) ∧
      (rspStatus r = 0x02#8 ↔ ∃ k, 2 * s.cfg.n ≤ k ∧
        (decodeCommand w = .ok (.rds k) ∨ ∃ v, decodeCommand w = .ok (.wrs k v))) ∧
      (rspStatus r ≠ 0x00#8 → EndsWith (acceptCommand w s) s s.S r)

/-- R117, R118, R133: any sequence of command words is executed, one response each, and leaves a
register file of 2·N words. -/
def Obligations.EngineNeverLocksUp : Prop :=
  ∀ (c : Config) (S : List Word) (ws : List CmdWord), c.WF → S.length = 2 * c.n →
    ∃ S' rs, transactAll c S ws = some (S', rs) ∧ rs.length = ws.length ∧ S'.length = 2 * c.n ∧
      ∀ r ∈ rs, rspLegal r

/-- R118: from every well-formed state a step answers a next state, never a fault or a refusal. -/
def Obligations.StepIsTotalOnWellFormedStates : Prop :=
  ∀ s : State, s.Inv → ∃ t, step s = .next t

/-- R118, R10: a configuration outside R10 is refused. -/
def Obligations.ConfigurationOutsideTheRangeIsRefused : Prop :=
  ∀ s : State, ¬ s.cfg.WF → step s = .refused .configOutOfRange

/-! ### The machine -/

/-- R44: on an idle engine a valid command that decodes is executed by that edge's step (that the
whole effect on S falls on the accepting edge is the model's choice, log 2). -/
def Obligations.StepRunsTheDecodedCommand : Prop :=
  ∀ (s : State) (p : PortSample) (rest : List Input) (i : Instr),
    s.cfg.WF → s.inputs = .edge p :: rest → p.rst = false → p.cmdValid = true → s.port = .idle →
    decode (.command p.cmd) = .ok i →
    step s = exec i { s with inputs := rest }

/-- R110: on an idle engine a valid command word that is a reserved encoding is answered ILLEGAL_CMD
with rdata 0, and nothing else changes. -/
def Obligations.StepAnswersAReservedWord : Prop :=
  ∀ (s : State) (p : PortSample) (rest : List Input) (r : Reserved),
    s.cfg.WF → s.inputs = .edge p :: rest → p.rst = false → p.cmdValid = true → s.port = .idle →
    decode (.command p.cmd) = .error r →
    EndsWith (step s) { s with inputs := rest } s.S 0x0100000000#40

/-- R123: between commands the engine is idle with S retained (that the pins are quiet where nothing
is listed is the model's choice, log 4). -/
def Obligations.IdleEngineRetainsItsState : Prop :=
  ∀ (s : State) (m : Nat), s.cfg.WF → s.inputs = [] → s.port = .idle →
    Host.Core.run core m s = .next s

/-- A drive of the MAC unit runs the operation its select bit decodes to (R55; driving the unit on
its own is the model's choice, log 5). -/
def Obligations.StepRunsTheDrivenMacOperation : Prop :=
  ∀ (s : State) (op : BitVec 1) (a x : Word) (c : Coef) (rest : List Input),
    s.cfg.WF → s.inputs = .mac op a x c :: rest →
    step s = exec (if op = 0#1 then .macb a x c else .maca a x c) { s with inputs := rest }

/-- The fetch aid: a table word that decodes is run by the very next step (log 8). -/
def Obligations.PresentedTableWordRunsNext : Prop :=
  ∀ (s : State) (nbits w : Nat) (i : Instr), s.cfg.WF → decodeTableWord nbits w = some i →
    step (s.withFetchWord nbits w) =
      exec i { s with port := if nbits ≤ 8 then s.port else .idle }

/-- R44: the handshake of an edge without reset: an idle engine with no valid command waits; a busy
one accepts nothing, presents its response after the edges it still needs, holds it while
`rsp_ready` is 0, and is idle again once it is taken. That S does not change on the edges of a
command in progress is the model's choice (log 2). -/
def Obligations.HandshakeHoldsTheResponse : Prop :=
  ∀ (s : State) (p : PortSample) (rest : List Input),
    s.cfg.WF → s.inputs = .edge p :: rest → p.rst = false →
    (s.port = .idle → p.cmdValid = false →
      s.cmdReady = true ∧ s.rspValid = false ∧ step s = .next { s with inputs := rest }) ∧
    (∀ left r, s.port = .busy (left + 1) r →
      s.cmdReady = false ∧ s.rspValid = false ∧
      step s = .next { s with inputs := rest, port := .busy left r }) ∧
    (∀ r, s.port = .busy 0 r → p.rspReady = false →
      s.cmdReady = false ∧ s.rspValid = true ∧ step s = .next { s with inputs := rest }) ∧
    (∀ r, s.port = .busy 0 r → p.rspReady = true →
      s.cmdReady = false ∧ s.rspValid = true ∧ takesNow s = some r ∧
      step s = .next { s with inputs := rest, port := .idle })

/-- R128, R44: with no reset, the response of an outstanding command is presented after exactly the
edges it still needs. Two things are the model's choice: that S is unchanged in between (log 2), and
that the pins are quiet where `inputs` lists fewer edges than that (log 4). -/
def Obligations.ResponseIsPresentedWithinItsLatency : Prop :=
  ∀ (s : State) (left : Nat) (r : RspWord), s.cfg.WF → s.port = .busy left r →
    (∀ e ∈ s.inputs.take left, ∃ p, e = .edge p ∧ p.rst = false) →
    ∃ t, Host.Core.run core left s = .next t ∧ t.port = .busy 0 r ∧ t.rspValid = true ∧
      t.S = s.S ∧ t.inputs = s.inputs.drop left

/-- How the model supplies LAT (its own choice, log 3): an accepted command takes the next free value
of `lat`, and its response is presented one edge later than that value says. -/
def Obligations.AcceptedCommandTakesTheNextLatency : Prop :=
  ∀ (s t : State) (w : CmdWord), acceptCommand w s = .next t →
    ∃ r, t.port = .busy (s.lat.headD 0) r ∧ t.lat = s.lat.tail

/-- R125: a reset edge takes any state, whatever is in progress and whatever S holds, to S all zero
and an idle port; the command in progress gives no response. That a handshake on the reset edge
counts for nothing, and that `cmd_ready` is 1 also where the reset is held further (R124 gives it for
the first edge without reset), is the model's choice (log 13). -/
def Obligations.ResetAbandonsTheCommand : Prop :=
  ∀ (s : State) (p : PortSample) (rest : List Input),
    s.cfg.WF → s.inputs = .edge p :: rest → p.rst = true →
    takesNow s = none ∧ acceptsNow s = none ∧
    ∃ t, step s = .next t ∧ t.S = List.replicate (2 * s.cfg.n) 0#32 ∧ t.port = .idle ∧
      t.cmdReady = true ∧ t.rspValid = false ∧ t.cfg = s.cfg ∧ t.inputs = rest

/-- R33, R124: reset leaves the same register file and configuration as INIT. -/
def Obligations.ResetAndInitLeaveTheSameState : Prop :=
  ∀ (s t u : State) (p : PortSample) (rest : List Input),
    s.inputs = .edge p :: rest → p.rst = true → step s = .next t → exec .init s = .next u →
    t.S = u.S ∧ t.cfg = u.cfg ∧ t.S = (State.resetOf s.cfg).S

/-- R9, R32, R36, R37: no instruction and no step changes the configuration; an instruction does not
touch what the outside will do. -/
def Obligations.ConfigurationNeverChanges : Prop :=
  (∀ s t : State, step s = .next t → t.cfg = s.cfg) ∧
  (∀ (i : Instr) (s t : State), exec i s = .next t → t.cfg = s.cfg ∧ t.inputs = s.inputs)

/-- The invariant: the configuration stays one R10 allows, S keeps 2·N words (R26), and a response
not yet taken is one the engine can produce (R48, R112). -/
def Obligations.StepKeepsStateWellFormed : Prop :=
  ∀ s t : State, s.Inv → step s = .next t → t.Inv

/-- The invariant holds right after reset, for every instance R10 allows and for the reference
instance (log 1). -/
def Obligations.ResetIsWellFormed : Prop :=
  (∀ c : Config, c.WF → (State.resetOf c).Inv) ∧ State.reset.Inv

/-- R41, R44: whatever the host does short of reset, over any number of steps the responses taken,
followed by the one still outstanding, are those of the accepted commands executed one at a time in
order (after the one outstanding at the start), and S is what that execution leaves. Two things are
the model's choice: that S holds this already while a command is in progress (log 2), and that the
host is quiet on steps past the end of `inputs` (log 4). -/
def Obligations.OneResponsePerCommandInOrder : Prop :=
  ∀ (m : Nat) (s t : State) (cs : List CmdWord) (rs : List RspWord),
    s.Inv → (∀ e ∈ s.inputs, e.noReset = true) → observe m s = some (cs, rs, t) →
    ∃ all, transactAll s.cfg s.S cs = some (t.S, all) ∧
      rs ++ t.port.outstanding.toList = s.port.outstanding.toList ++ all

/-- R122: in any interleaving of several engines, each engine goes exactly where its own steps alone
take it. -/
def Obligations.EnginesDoNotInterfere : Prop :=
  ∀ (sched : List Nat) (sys sys' : List State), runSystem sched sys = some sys' →
    sys'.length = sys.length ∧
    ∀ (j : Nat) (s : State), sys[j]? = some s →
      ∃ s', sys'[j]? = some s' ∧ Host.Core.run core (sched.count j) s = .next s'

/-- R56, R57, R58: the text of a line assembles to the worked encodings; underscores and a comment do
not matter; an operand out of range or a hex operand of the wrong length is no command line; and the
three forms of a response's text. -/
def Obligations.AssemblyTextGivesTheWorkedEncodings : Prop :=
  assembleText "FILT 32767".toList = some 0x010000007FFF#48 ∧
  assembleText "FILT -1".toList = some 0x01000000FFFF#48 ∧
  assembleText "FILT 0x8000 ; the least sample".toList = some 0x010000008000#48 ∧
  assembleText "INIT".toList = some 0x020000000000#48 ∧
  assembleText "RDS 1".toList = some 0x030100000000#48 ∧
  assembleText "WRS 0, 0x7FFF_FFFF".toList = some 0x04007FFFFFFF#48 ∧
  assembleText "WRS 1, -1".toList = some 0x0401FFFFFFFF#48 ∧
  assembleText ".word 0x0100FFFFC000".toList = some 0x0100FFFFC000#48 ∧
  assembleText "FILT 32768".toList = none ∧
  assembleText "RDS 256".toList = none ∧
  assembleText "WRS 0, 0x7FFF".toList = none ∧
  responseText 0x00FFFFFFFD#40 = some "-> OK -3".toList ∧
  responseText 0x0100000000#40 = some "-> ILLEGAL_CMD".toList ∧
  responseText 0x0200000000#40 = some "-> INDEX_RANGE".toList
end

