-- ==== Sys2Proof/Laws/Decode.lean ====
section
/-! SUPPORT. The fields of a command word, and what the decoder can answer. -/

namespace Sys2Proof

theorem opField_cmdWord (op idx : BitVec 8) (hi lo : BitVec 16) :
    opField (cmdWord op idx hi lo) = op := by
  apply BitVec.eq_of_getLsbD_eq
  intro j hj
  simp only [opField, cmdWord, BitVec.getLsbD_append, BitVec.getLsbD_extractLsb']
  rw [if_neg (by omega), if_neg (by omega), if_neg (by omega)]
  rw [show 40 + j - 16 - 16 - 8 = j by omega]
  simp [hj]

theorem idxField_cmdWord (op idx : BitVec 8) (hi lo : BitVec 16) :
    idxField (cmdWord op idx hi lo) = idx := by
  apply BitVec.eq_of_getLsbD_eq
  intro j hj
  simp only [idxField, cmdWord, BitVec.getLsbD_append, BitVec.getLsbD_extractLsb']
  rw [if_neg (by omega), if_neg (by omega), if_pos (by omega)]
  rw [show 32 + j - 16 - 16 = j by omega]
  simp [hj]

theorem dataHi_cmdWord (op idx : BitVec 8) (hi lo : BitVec 16) :
    dataHi (cmdWord op idx hi lo) = hi := by
  apply BitVec.eq_of_getLsbD_eq
  intro j hj
  simp only [dataHi, cmdWord, BitVec.getLsbD_append, BitVec.getLsbD_extractLsb']
  rw [if_neg (by omega), if_pos (by omega), show 16 + j - 16 = j by omega]
  simp [hj]

theorem dataLo_cmdWord (op idx : BitVec 8) (hi lo : BitVec 16) :
    dataLo (cmdWord op idx hi lo) = lo := by
  apply BitVec.eq_of_getLsbD_eq
  intro j hj
  simp only [dataLo, cmdWord, BitVec.getLsbD_append, BitVec.getLsbD_extractLsb']
  rw [if_pos (by omega), Nat.zero_add]
  simp [hj]

/-- A command word is its four fields (R47). -/
theorem cmdWord_fields (w : CmdWord) :
    cmdWord (opField w) (idxField w) (dataHi w) (dataLo w) = w := by
  apply BitVec.eq_of_getLsbD_eq
  intro j hj
  simp only [cmdWord, opField, idxField, dataHi, dataLo, BitVec.getLsbD_append,
    BitVec.getLsbD_extractLsb']
  split
  · simp_all
  · split
    · rw [show 16 + (j - 16) = j by omega]
      simp_all
    · split
      · rw [show 32 + (j - 16 - 16) = j by omega]
        simp_all
      · rw [show 40 + (j - 16 - 16 - 8) = j by omega]
        simp
        omega

/-- Two command words with equal fields are equal. -/
theorem cmdWord_ext {w v : CmdWord} (h1 : opField w = opField v) (h2 : idxField w = idxField v)
    (h3 : dataHi w = dataHi v) (h4 : dataLo w = dataLo v) : w = v := by
  rw [← cmdWord_fields w, ← cmdWord_fields v, h1, h2, h3, h4]

/-- The two halves of a 32-bit operand put together again (R50). -/
theorem halves_append (v : BitVec 32) :
    v.extractLsb' 16 16 ++ v.extractLsb' 0 16 = v := by
  apply BitVec.eq_of_getLsbD_eq
  intro j hj
  simp only [BitVec.getLsbD_append, BitVec.getLsbD_extractLsb']
  split
  · simp_all
  · rw [show 16 + (j - 16) = j by omega]
    simp
    omega

/-- Everything a successful decode can be: the four lines of R54. -/
theorem decodeCommand_ok {w : CmdWord} {i : Instr} (h : decodeCommand w = .ok i) :
    (i = .filt (dataLo w) ∧ opField w = 0x01#8 ∧ idxField w = 0#8 ∧ dataHi w = 0#16) ∨
    (i = .init ∧ opField w = 0x02#8 ∧ idxField w = 0#8 ∧ dataHi w = 0#16 ∧ dataLo w = 0#16) ∨
    (i = .rds (idxField w).toNat ∧ opField w = 0x03#8 ∧ dataHi w = 0#16 ∧ dataLo w = 0#16) ∨
    (i = .wrs (idxField w).toNat (dataHi w ++ dataLo w) ∧ opField w = 0x04#8) := by
  unfold decodeCommand at h
  split at h
  · split at h <;> cases h
    exact .inl ⟨rfl, ‹_›, ‹_›⟩
  · split at h
    · split at h <;> cases h
      exact .inr (.inl ⟨rfl, ‹_›, ‹_›⟩)
    · split at h
      · split at h <;> cases h
        exact .inr (.inr (.inl ⟨rfl, ‹_›, ‹_›⟩))
      · split at h <;> cases h
        exact .inr (.inr (.inr ⟨rfl, ‹_›⟩))

end Sys2Proof
end

