-- ==== Sys2Proof/Laws/State.lean ====
section
/-! SUPPORT. One lemma per field of State for each of the model's updates. -/

namespace Sys2Proof.Machine

variable (st : Status) (d : Word) (s : State)

@[simp] theorem respond_cfg : (respond st d s).cfg = s.cfg := rfl
@[simp] theorem respond_S : (respond st d s).S = s.S := rfl
@[simp] theorem respond_port : (respond st d s).port = .busy (s.lat.headD 0) (rspWord st d) := rfl
@[simp] theorem respond_lat : (respond st d s).lat = s.lat.tail := rfl
@[simp] theorem respond_macR : (respond st d s).macR = s.macR := rfl
@[simp] theorem respond_inputs : (respond st d s).inputs = s.inputs := rfl

@[simp] theorem raiseStatus_cfg : (raiseStatus st s).cfg = s.cfg := rfl
@[simp] theorem raiseStatus_S : (raiseStatus st s).S = s.S := rfl
@[simp] theorem raiseStatus_port :
    (raiseStatus st s).port = .busy (s.lat.headD 0) (rspWord st 0#32) := rfl
@[simp] theorem raiseStatus_lat : (raiseStatus st s).lat = s.lat.tail := rfl
@[simp] theorem raiseStatus_macR : (raiseStatus st s).macR = s.macR := rfl
@[simp] theorem raiseStatus_inputs : (raiseStatus st s).inputs = s.inputs := rfl

@[simp] theorem hardwareReset_cfg : (hardwareReset s).cfg = s.cfg := rfl
@[simp] theorem hardwareReset_S : (hardwareReset s).S = List.replicate (2 * s.cfg.n) 0#32 := rfl
@[simp] theorem hardwareReset_port : (hardwareReset s).port = .idle := rfl
@[simp] theorem hardwareReset_lat : (hardwareReset s).lat = s.lat := rfl
@[simp] theorem hardwareReset_macR : (hardwareReset s).macR = s.macR := rfl
@[simp] theorem hardwareReset_inputs : (hardwareReset s).inputs = s.inputs := rfl

@[simp] theorem resetOf_cfg (c : Config) : (State.resetOf c).cfg = c := rfl
@[simp] theorem resetOf_S (c : Config) :
    (State.resetOf c).S = List.replicate (2 * c.n) 0#32 := rfl
@[simp] theorem resetOf_port (c : Config) : (State.resetOf c).port = .idle := rfl

@[simp] theorem outstanding_idle : Port.idle.outstanding = none := rfl
@[simp] theorem outstanding_busy (left : Nat) (r : RspWord) :
    (Port.busy left r).outstanding = some r := rfl

@[simp] theorem legal_idle : Port.idle.legal = true := rfl
@[simp] theorem legal_busy (left : Nat) (r : RspWord) :
    (Port.busy left r).legal = true ↔ rspLegal r := decide_eq_true_iff

end Sys2Proof.Machine
end

