-- ==== Sys2Proof/Laws/Ops.lean ====
section
/-! SUPPORT. What the shared operations over S, the tables and the response word can do, one lemma
each. -/

namespace Sys2Proof.Machine

theorem readS_eq_some {S : List Word} {k : Nat} {v : Word} :
    readS S k = some v ↔ S[k]? = some v := Iff.rfl

theorem readS_of_lt {S : List Word} {k : Nat} (h : k < S.length) : readS S k = some S[k] := by
  simp [readS, h]

theorem readCA_of_lt {c : Config} {k : Nat} (h : k < c.ca.length) :
    readCA c k = some c.ca[k] := by simp [readCA, h]

theorem readCB_of_lt {c : Config} {k : Nat} (h : k < c.cb.length) :
    readCB c k = some c.cb[k] := by simp [readCB, h]

/-- A write that succeeds was inside the register file and is a list update. -/
theorem writeS_eq_some {S S' : List Word} {k : Nat} {v : Word} :
    writeS S k v = some S' ↔ k < S.length ∧ S' = S.set k v := by
  unfold writeS
  split <;> simp_all [eq_comm]

theorem writeS_of_lt {S : List Word} {k : Nat} {v : Word} (h : k < S.length) :
    writeS S k v = some (S.set k v) := writeS_eq_some.2 ⟨h, rfl⟩

/-- A read after a write to the same word gives the value written. -/
theorem readS_writeS_same {S S' : List Word} {k : Nat} {v : Word} (h : writeS S k v = some S') :
    readS S' k = some v := by
  obtain ⟨hk, rfl⟩ := writeS_eq_some.1 h
  simp [readS, hk]

/-- A write leaves every other word alone. -/
theorem readS_writeS_other {S S' : List Word} {k j : Nat} {v : Word} (h : writeS S k v = some S')
    (hj : j ≠ k) : readS S' j = readS S j := by
  obtain ⟨-, rfl⟩ := writeS_eq_some.1 h
  simp [readS, List.getElem?_set_ne hj.symm]

/-- A write keeps the length of the register file (R26). -/
theorem writeS_length {S S' : List Word} {k : Nat} {v : Word} (h : writeS S k v = some S') :
    S'.length = S.length := by
  obtain ⟨-, rfl⟩ := writeS_eq_some.1 h
  simp

@[simp] theorem zeroS_length (c : Config) : (zeroS c).length = 2 * c.n := by simp [zeroS]

@[simp] theorem readS_zeroS {c : Config} {k : Nat} (h : k < 2 * c.n) :
    readS (zeroS c) k = some 0#32 := by simp [readS, zeroS, h]

@[simp] theorem rspStatus_rspWord (st : Status) (d : Word) :
    rspStatus (rspWord st d) = statusCode st := by
  simp only [rspStatus, rspWord]
  exact BitVec.extractLsb'_append_eq_left

@[simp] theorem rspData_rspWord (st : Status) (d : Word) : rspData (rspWord st d) = d := by
  simp only [rspData, rspWord]
  exact BitVec.extractLsb'_append_eq_right

theorem statusCode_eq_ok {st : Status} : statusCode st = 0x00#8 ↔ st = .ok := by
  cases st <;> decide

theorem statusCode_eq_illegalCmd {st : Status} : statusCode st = 0x01#8 ↔ st = .illegalCmd := by
  cases st <;> decide

theorem statusCode_eq_indexRange {st : Status} : statusCode st = 0x02#8 ↔ st = .indexRange := by
  cases st <;> decide

/-- R48: a response is legal when a non-OK status carries data 0. -/
theorem rspLegal_rspWord {st : Status} {d : Word} (h : st ≠ .ok → d = 0#32) :
    rspLegal (rspWord st d) := by
  refine ⟨?_, fun hne => ?_⟩
  · cases st <;> simp [statusCode]
  · rw [rspStatus_rspWord, Ne, statusCode_eq_ok] at hne
    rw [rspData_rspWord, h hne]

theorem rspWord_ok (d : Word) : rspWord .ok d = 0x00#8 ++ d := rfl

end Sys2Proof.Machine
end

