-- ==== Sys2Proof/Laws/Mac.lean ====
section
/-! SUPPORT. The integer readings of shifts, extension and the half split, and that the two partial
products of a multiply are exact. -/

namespace Sys2Proof.Machine

/-- R15: an arithmetic shift right is floor division. -/
theorem asr_toInt {w : Nat} (v : BitVec w) (k : Nat) : (asr v k).toInt = v.toInt / 2 ^ k := by
  simp [asr, BitVec.toInt_sshiftRight, Int.shiftRight_eq_div_pow]

/-- R15: a shift left is the wrapped product with 2^k. -/
theorem lsl_eq_ofInt {w : Nat} (v : BitVec w) (k : Nat) :
    lsl v k = BitVec.ofInt w (v.toInt * 2 ^ k) := by
  rw [lsl, BitVec.shiftLeft_eq_mul_twoPow, BitVec.ofInt_mul, BitVec.ofInt_toInt]
  congr 1
  apply BitVec.eq_of_toNat_eq
  rw [BitVec.toNat_twoPow, BitVec.toNat_ofInt]
  norm_cast

/-- R16: sign extension keeps the signed value. -/
theorem sext32_toInt (v : BitVec 16) : (sext32 v).toInt = v.toInt := by
  simp [sext32, BitVec.toInt_signExtend_of_le]

/-- R16: zero extension keeps the unsigned value. -/
theorem zext32_toInt (v : BitVec 16) : (zext32 v).toInt = (v.toNat : Int) := by
  have h := v.isLt
  rw [zext32, BitVec.toInt_eq_toNat_of_lt] <;> simp [BitVec.toNat_setWidth] <;> omega

theorem coef_bounds (c : Coef) : -32768 ≤ c.toInt ∧ c.toInt ≤ 32767 := by
  have h1 := BitVec.le_toInt c
  have h2 := BitVec.toInt_lt (x := c)
  omega

theorem word_bounds (x : Word) : -2147483648 ≤ x.toInt ∧ x.toInt ≤ 2147483647 := by
  have h1 := BitVec.le_toInt x
  have h2 := BitVec.toInt_lt (x := x)
  omega

/-- The signed reading of a word and its unsigned reading differ by a multiple of 2^32. -/
theorem word_toInt_cases (x : Word) :
    (x.toInt = x.toNat ∧ x.toNat < 2147483648) ∨
      (x.toInt = (x.toNat : Int) - 4294967296 ∧ 2147483648 ≤ x.toNat) := by
  have h := x.isLt
  rw [BitVec.toInt_eq_toNat_cond]
  split <;> omega

/-- R84: the upper half. -/
theorem hiHalf_toInt (x : Word) : (hiHalf x).toInt = x.toInt / 65536 := asr_toInt x 16

/-- R84: the lower half. -/
theorem loHalf_toInt (x : Word) : (loHalf x).toInt = x.toInt % 65536 := by
  rw [loHalf, zext32_toInt]
  have h := word_toInt_cases x
  simp only [BitVec.extractLsb'_toNat, Nat.shiftRight_zero]
  omega

/-- An integer in range is what its 32-bit wrap reads as (R14). -/
theorem toInt_ofInt_of_range {z : Int} (h1 : -2147483648 ≤ z) (h2 : z ≤ 2147483647) :
    (BitVec.ofInt 32 z).toInt = z := by
  rw [BitVec.toInt_ofInt]
  apply Int.bmod_eq_of_le <;> omega

/-- Bounds of a product with a 16-bit coefficient. -/
theorem mul_coef_bounds {p lo hi : Int} (c : Coef) (hlo : lo ≤ p) (hhi : p ≤ hi) (h0 : lo ≤ 0)
    (h1 : 0 ≤ hi) :
    (-32768 * hi ≤ p * c.toInt ∨ 32767 * lo ≤ p * c.toInt) ∧
      (p * c.toInt ≤ 32767 * hi ∨ p * c.toInt ≤ -32768 * lo) := by
  obtain ⟨hc1, hc2⟩ := coef_bounds c
  rcases le_total 0 p with hp | hp
  · exact ⟨.inl (by nlinarith), .inl (by nlinarith)⟩
  · exact ⟨.inr (by nlinarith), .inr (by nlinarith)⟩

/-- A 32-bit product whose exact value fits is exact. -/
theorem mul_toInt_of_range {a b : Word} (h1 : -2147483648 ≤ a.toInt * b.toInt)
    (h2 : a.toInt * b.toInt ≤ 2147483647) : (a * b).toInt = a.toInt * b.toInt := by
  rw [BitVec.toInt_mul]
  apply Int.bmod_eq_of_le <;> omega

/-- R89: the high-half product does not overflow. -/
theorem highProduct_toInt (x : Word) (c : Coef) :
    (highProduct x c).toInt = x.toInt / 65536 * c.toInt := by
  have hx := word_bounds x
  have hb := mul_coef_bounds c (p := x.toInt / 65536) (lo := -32768) (hi := 32767)
    (by omega) (by omega) (by omega) (by omega)
  rw [highProduct, mul_toInt_of_range] <;> rw [hiHalf_toInt, sext32_toInt] <;> omega

/-- R89: the low-half product does not overflow. -/
theorem lowProduct_toInt (x : Word) (c : Coef) :
    (lowProduct x c).toInt = x.toInt % 65536 * c.toInt := by
  have hb := mul_coef_bounds c (p := x.toInt % 65536) (lo := 0) (hi := 65535)
    (by omega) (by omega) (by omega) (by omega)
  rw [lowProduct, mul_toInt_of_range] <;> rw [loHalf_toInt, sext32_toInt] <;> omega

/-- A 32-bit sum whose exact value fits is exact. -/
theorem add_toInt_of_range {a b : Word} (h1 : -2147483648 ≤ a.toInt + b.toInt)
    (h2 : a.toInt + b.toInt ≤ 2147483647) : (a + b).toInt = a.toInt + b.toInt := by
  rw [BitVec.toInt_add]
  apply Int.bmod_eq_of_le <;> omega

/-- The exact product from the two partial products (R84). -/
theorem product_split (x : Word) (c : Coef) :
    x.toInt * c.toInt = x.toInt / 65536 * c.toInt * 65536 + x.toInt % 65536 * c.toInt := by
  have h := Int.mul_ediv_add_emod x.toInt 65536
  calc x.toInt * c.toInt = (65536 * (x.toInt / 65536) + x.toInt % 65536) * c.toInt := by rw [h]
    _ = _ := by ring

end Sys2Proof.Machine
end

