-- ==== Sys2Proof/Laws/Filter.lean ====
section
/-! SUPPORT. What the section step and the cascade can do. -/

namespace Sys2Proof.Machine

/-- A section step inside its spaces completes, and this is everything it does. -/
theorem sectionStep_eq {c : Config} {S : List Word} {i : Nat} {acc s0 s1 : Word}
    {b0 b1 b2 a1 a2 : Coef} (h0 : S[2 * i]? = some s0) (h1 : S[2 * i + 1]? = some s1)
    (hb0 : c.cb[3 * i]? = some b0) (hb1 : c.cb[3 * i + 1]? = some b1)
    (hb2 : c.cb[3 * i + 2]? = some b2) (ha1 : c.ca[2 * i]? = some a1)
    (ha2 : c.ca[2 * i + 1]? = some a2) :
    sectionStep c S i acc =
      some (multB acc b0 + s0,
        (S.set (2 * i) ((s1 + multB acc b1) - multA (multB acc b0 + s0) a1)).set (2 * i + 1)
          (multB acc b2 - multA (multB acc b0 + s0) a2)) := by
  have hlt : 2 * i + 1 < S.length := (List.getElem?_eq_some_iff.1 h1).1
  have hlt0 : 2 * i < S.length := by omega
  simp only [sectionStep, readS, readCA, readCB, writeS, h0, h1, hb0, hb1, hb2, ha1, ha2, hlt, hlt0,
    List.length_set, if_true, Option.bind_eq_bind, Option.bind_some, Option.pure_def]

/-- A section step that completes was inside its spaces. -/
theorem sectionStep_some {c : Config} {S S' : List Word} {i : Nat} {acc acc' : Word}
    (h : sectionStep c S i acc = some (acc', S')) :
    ∃ s0 s1 b0 b1 b2 a1 a2, S[2 * i]? = some s0 ∧ S[2 * i + 1]? = some s1 ∧
      c.cb[3 * i]? = some b0 ∧ c.cb[3 * i + 1]? = some b1 ∧ c.cb[3 * i + 2]? = some b2 ∧
      c.ca[2 * i]? = some a1 ∧ c.ca[2 * i + 1]? = some a2 := by
  simp only [sectionStep, readS, readCA, readCB, Option.bind_eq_bind, Option.bind_eq_some_iff] at h
  obtain ⟨s0, h0, s1, h1, b0, hb0, b1, hb1, b2, hb2, a1, ha1, a2, ha2, -⟩ := h
  exact ⟨s0, s1, b0, b1, b2, a1, a2, h0, h1, hb0, hb1, hb2, ha1, ha2⟩

/-- Section `i` of a well-formed instance has all its words (R42). -/
theorem section_words {c : Config} {S : List Word} {i : Nat} (hc : c.WF)
    (hS : S.length = 2 * c.n) (hi : i < c.n) :
    ∃ s0 s1 b0 b1 b2 a1 a2, S[2 * i]? = some s0 ∧ S[2 * i + 1]? = some s1 ∧
      c.cb[3 * i]? = some b0 ∧ c.cb[3 * i + 1]? = some b1 ∧ c.cb[3 * i + 2]? = some b2 ∧
      c.ca[2 * i]? = some a1 ∧ c.ca[2 * i + 1]? = some a2 := by
  obtain ⟨-, hca, hcb⟩ := hc
  exact ⟨S[2 * i], S[2 * i + 1], c.cb[3 * i], c.cb[3 * i + 1], c.cb[3 * i + 2], c.ca[2 * i],
    c.ca[2 * i + 1], by simp⟩

/-- A section step keeps the length of the register file. -/
theorem sectionStep_length {c : Config} {S S' : List Word} {i : Nat} {acc acc' : Word}
    (h : sectionStep c S i acc = some (acc', S')) : S'.length = S.length := by
  obtain ⟨s0, s1, b0, b1, b2, a1, a2, h0, h1, hb0, hb1, hb2, ha1, ha2⟩ := sectionStep_some h
  rw [sectionStep_eq h0 h1 hb0 hb1 hb2 ha1 ha2] at h
  obtain ⟨-, rfl⟩ := Prod.mk.inj (Option.some.inj h)
  simp

/-- A section step leaves every word outside its section alone (R64, R73). -/
theorem sectionStep_other {c : Config} {S S' : List Word} {i k : Nat} {acc acc' : Word}
    (h : sectionStep c S i acc = some (acc', S')) (hk0 : k ≠ 2 * i) (hk1 : k ≠ 2 * i + 1) :
    S'[k]? = S[k]? := by
  obtain ⟨s0, s1, b0, b1, b2, a1, a2, h0, h1, hb0, hb1, hb2, ha1, ha2⟩ := sectionStep_some h
  rw [sectionStep_eq h0 h1 hb0 hb1 hb2 ha1 ha2] at h
  obtain ⟨-, rfl⟩ := Prod.mk.inj (Option.some.inj h)
  rw [List.getElem?_set_ne hk1.symm, List.getElem?_set_ne hk0.symm]

theorem cascade_zero (c : Config) (S : List Word) (acc : Word) :
    cascade c S acc 0 = some (acc, S) := rfl

/-- The cascade over `m + 1` sections is the cascade over `m` and then section `m` (R64). -/
theorem cascade_succ_some {c : Config} {S S' : List Word} {acc acc' : Word} {m : Nat} :
    cascade c S acc (m + 1) = some (acc', S') ↔
      ∃ accM SM, cascade c S acc m = some (accM, SM) ∧
        sectionStep c SM m accM = some (acc', S') := by
  simp [cascade, Option.bind_eq_some_iff]

/-- The cascade keeps the length of the register file. -/
theorem cascade_length {c : Config} {S : List Word} {acc : Word} (m : Nat) {acc' : Word}
    {S' : List Word} (h : cascade c S acc m = some (acc', S')) : S'.length = S.length := by
  induction m generalizing acc' S' with
  | zero =>
    obtain ⟨-, rfl⟩ := Prod.mk.inj (Option.some.inj h)
    rfl
  | succ m ih =>
    obtain ⟨accM, SM, hm, hs⟩ := cascade_succ_some.1 h
    rw [sectionStep_length hs, ih hm]

/-- The first `m` sections leave the words of the later ones alone. -/
theorem cascade_later {c : Config} {S : List Word} {acc : Word} (m : Nat) {acc' : Word}
    {S' : List Word} (h : cascade c S acc m = some (acc', S')) {k : Nat} (hk : 2 * m ≤ k) :
    S'[k]? = S[k]? := by
  induction m generalizing acc' S' with
  | zero =>
    obtain ⟨-, rfl⟩ := Prod.mk.inj (Option.some.inj h)
    rfl
  | succ m ih =>
    obtain ⟨accM, SM, hm, hs⟩ := cascade_succ_some.1 h
    rw [sectionStep_other hs (by omega) (by omega), ih hm (by omega)]

/-- On a well-formed instance the cascade over any of its sections completes (R107). -/
theorem cascade_completes {c : Config} {S : List Word} (hc : c.WF) (hS : S.length = 2 * c.n)
    (acc : Word) (m : Nat) (hm : m ≤ c.n) : ∃ r, cascade c S acc m = some r := by
  induction m with
  | zero => exact ⟨_, rfl⟩
  | succ m ih =>
    obtain ⟨⟨accM, SM⟩, hcm⟩ := ih (by omega)
    obtain ⟨s0, s1, b0, b1, b2, a1, a2, h0, h1, hb0, hb1, hb2, ha1, ha2⟩ :=
      section_words (i := m) hc ((cascade_length m hcm).trans hS) (by omega)
    exact ⟨_, cascade_succ_some.2 ⟨accM, SM, hcm, sectionStep_eq h0 h1 hb0 hb1 hb2 ha1 ha2⟩⟩

theorem filterSample_some {c : Config} {S S' : List Word} {x out : Sample} :
    filterSample c S x = some (out, S') ↔
      ∃ acc, cascade c S (widen x) c.n = some (acc, S') ∧ out = outputSample acc := by
  simp only [filterSample, Option.bind_eq_bind, Option.bind_eq_some_iff, Prod.exists, Option.pure_def,
    Option.some.injEq, Prod.mk.injEq]
  constructor
  · rintro ⟨acc, S1, h, rfl, rfl⟩
    exact ⟨acc, h, rfl⟩
  · rintro ⟨acc, h, rfl⟩
    exact ⟨acc, S', h, rfl, rfl⟩

end Sys2Proof.Machine
end

