-- ==== Sys2Proof/Laws/Lifecycle.lean ====
section
/-! SUPPORT. The forms a meaning's outcome can have: an instruction answers a response and a register
file, or drives the MAC unit's output, or stops outside a space. -/

namespace Sys2Proof.Machine

/-- What the command with register file `S'` and response (`st`, `d`) leaves. -/
def endWith (s : State) (S' : List Word) (st : Status) (d : Word) : State :=
  respond st d { s with S := S' }

@[simp] theorem endWith_cfg (s S' st d) : (endWith s S' st d).cfg = s.cfg := rfl
@[simp] theorem endWith_S (s S' st d) : (endWith s S' st d).S = S' := rfl
@[simp] theorem endWith_inputs (s S' st d) : (endWith s S' st d).inputs = s.inputs := rfl
@[simp] theorem endWith_macR (s S' st d) : (endWith s S' st d).macR = s.macR := rfl
@[simp] theorem endWith_port (s S' st d) :
    (endWith s S' st d).port = .busy (s.lat.headD 0) (rspWord st d) := rfl

/-- An instruction that answers a next state ended a command, with the register file at its length
or at 2·N words and data 0 unless OK, or drove the MAC unit's output. -/
theorem exec_next {i : Instr} {s t : State} (h : exec i s = .next t) :
    (∃ S' st d, t = endWith s S' st d ∧ (S'.length = s.S.length ∨ S'.length = 2 * s.cfg.n) ∧
      (st ≠ .ok → d = 0#32 ∧ S' = s.S)) ∨
    ∃ r, t = { s with macR := r } := by
  cases i with
  | filt x =>
    simp only [exec, execFilt] at h
    split at h
    · next out S' hf =>
      obtain ⟨acc, hc, -⟩ := filterSample_some.1 hf
      cases h
      exact .inl ⟨S', .ok, sext32 out, rfl, .inl (cascade_length _ hc), fun hne => (hne rfl).elim⟩
    · cases h
  | init =>
    cases h
    exact .inl ⟨zeroS s.cfg, .ok, 0#32, rfl, .inr (zeroS_length _), fun hne => (hne rfl).elim⟩
  | rds k =>
    simp only [exec, execRds] at h
    split at h
    · cases h
      exact .inl ⟨s.S, .indexRange, 0#32, rfl, .inl rfl, fun _ => ⟨rfl, rfl⟩⟩
    · split at h
      · cases h
        exact .inl ⟨s.S, .ok, _, rfl, .inl rfl, fun hne => (hne rfl).elim⟩
      · cases h
  | wrs k v =>
    simp only [exec, execWrs] at h
    split at h
    · cases h
      exact .inl ⟨s.S, .indexRange, 0#32, rfl, .inl rfl, fun _ => ⟨rfl, rfl⟩⟩
    · split at h
      · next S' hw =>
        cases h
        exact .inl ⟨S', .ok, 0#32, rfl, .inl (writeS_length hw), fun hne => (hne rfl).elim⟩
      · cases h
  | macb a x c => cases h; exact .inr ⟨_, rfl⟩
  | maca a x c => cases h; exact .inr ⟨_, rfl⟩

/-- On a register file and tables of the right length no meaning stops (R107, R118). -/
theorem exec_completes (i : Instr) {s : State} (hc : s.cfg.WF) (hS : s.S.length = 2 * s.cfg.n) :
    ∃ t, exec i s = .next t := by
  cases i with
  | filt x =>
    obtain ⟨⟨acc, S'⟩, h⟩ := cascade_completes hc hS (widen x) s.cfg.n le_rfl
    have hf : filterSample s.cfg s.S x = some (outputSample acc, S') :=
      filterSample_some.2 ⟨acc, h, rfl⟩
    simp only [exec, execFilt, hf]
    exact ⟨_, rfl⟩
  | init => exact ⟨_, rfl⟩
  | rds k =>
    simp only [exec, execRds]
    split
    · exact ⟨_, rfl⟩
    · rw [readS_of_lt (by unfold indexOutOfRange at *; omega)]
      exact ⟨_, rfl⟩
  | wrs k v =>
    simp only [exec, execWrs]
    split
    · exact ⟨_, rfl⟩
    · rw [writeS_of_lt (by unfold indexOutOfRange at *; omega)]
      exact ⟨_, rfl⟩
  | macb a x c => exact ⟨_, rfl⟩
  | maca a x c => exact ⟨_, rfl⟩

end Sys2Proof.Machine
end

