-- ==== Sys2Proof/Laws/PerInstr.lean ====
section
/-! SUPPORT. Families of statements made per instruction. -/

/-- The encoding of an instruction lies in its row of the opcode map (R51), or is its select bit of
the MAC unit (R55). -/
def Sys2Proof.Laws.EncodingInRow.Statement (i : Sys2Proof.Instr) : Prop :=
  (∃ w row, Sys2Proof.encode i = .command w ∧ Sys2Proof.opcodeRow i = some row ∧
    Sys2Proof.matchesRow w row = true) ∨
  (∃ op a x c, Sys2Proof.encode i = .macOp op a x c ∧ Sys2Proof.opcodeRow i = none ∧
    Sys2Proof.decodeMacOp op a x c = i)

namespace Sys2Proof.Laws.EncodingInRow

/-- A mask of whole fields keeps or clears each field of a command word. -/
theorem cmdWord_and (o k : BitVec 8) (h l : BitVec 16) (o' k' : BitVec 8) (h' l' : BitVec 16) :
    cmdWord o k h l &&& cmdWord o' k' h' l' = cmdWord (o &&& o') (k &&& k') (h &&& h') (l &&& l') := by
  unfold cmdWord
  erw [BitVec.and_append, BitVec.and_append, BitVec.and_append]

theorem filt (s : Sample) : Statement (.filt s) := by
  refine .inl ⟨_, _, rfl, rfl, ?_⟩
  have hm : (0xFFFFFFFF0000#48 : CmdWord) = cmdWord 0xFF#8 0xFF#8 0xFFFF#16 0#16 := by decide
  have hv : (0x010000000000#48 : CmdWord) = cmdWord 0x01#8 0#8 0#16 0#16 := by decide
  simp only [matchesRow, hm, hv, cmdWord_and, beq_iff_eq, BitVec.and_zero]
  congr 1

theorem init : Statement .init := .inl ⟨_, _, rfl, rfl, by decide⟩

theorem rds (k : Nat) : Statement (.rds k) := by
  refine .inl ⟨_, _, rfl, rfl, ?_⟩
  have hm : (0xFF00FFFFFFFF#48 : CmdWord) = cmdWord 0xFF#8 0#8 0xFFFF#16 0xFFFF#16 := by decide
  have hv : (0x030000000000#48 : CmdWord) = cmdWord 0x03#8 0#8 0#16 0#16 := by decide
  simp only [matchesRow, hm, hv, cmdWord_and, beq_iff_eq, BitVec.and_zero]
  congr 1

theorem wrs (k : Nat) (v : Word) : Statement (.wrs k v) := by
  refine .inl ⟨_, _, rfl, rfl, ?_⟩
  have hm : (0xFF0000000000#48 : CmdWord) = cmdWord 0xFF#8 0#8 0#16 0#16 := by decide
  have hv : (0x040000000000#48 : CmdWord) = cmdWord 0x04#8 0#8 0#16 0#16 := by decide
  simp only [matchesRow, hm, hv, cmdWord_and, beq_iff_eq, BitVec.and_zero]
  congr 1

theorem macb (a x : Word) (c : Coef) : Statement (.macb a x c) :=
  .inr ⟨_, _, _, _, rfl, rfl, rfl⟩

theorem maca (a x : Word) (c : Coef) : Statement (.maca a x c) :=
  .inr ⟨_, _, _, _, rfl, rfl, rfl⟩

end Sys2Proof.Laws.EncodingInRow
end

