-- ==== Sys2Proof/Laws/Step.lean ====
section
/-! SUPPORT. Everything one step can do, said once. -/

namespace Sys2Proof.Machine

@[simp] theorem nextInput_cfg (s : State) : (nextInput s).2.cfg = s.cfg := by
  unfold nextInput
  split <;> rfl

@[simp] theorem nextInput_S (s : State) : (nextInput s).2.S = s.S := by
  unfold nextInput
  split <;> rfl

@[simp] theorem nextInput_port (s : State) : (nextInput s).2.port = s.port := by
  unfold nextInput
  split <;> rfl

@[simp] theorem nextInput_lat (s : State) : (nextInput s).2.lat = s.lat := by
  unfold nextInput
  split <;> rfl

@[simp] theorem nextInput_macR (s : State) : (nextInput s).2.macR = s.macR := by
  unfold nextInput
  split <;> rfl

theorem nextInput_inputs (s : State) : (nextInput s).2.inputs = s.inputs.tail := by
  unfold nextInput
  split <;> simp [*]

theorem nextInput_cons {s : State} {e : Input} {rest : List Input} (h : s.inputs = e :: rest) :
    nextInput s = (e, { s with inputs := rest }) := by
  simp [nextInput, h]

theorem nextInput_nil {s : State} (h : s.inputs = []) :
    nextInput s = (.edge quietSample, s) := by
  simp [nextInput, h]

/-- A step of an instance R10 allows handles the next input. -/
theorem step_of_wf {s : State} (h : s.cfg.WF) :
    step s = stepInput (nextInput s).1 (nextInput s).2 := if_pos h

/-- Only a configuration R10 allows steps. -/
theorem step_next_wf {s t : State} (h : step s = .next t) :
    s.cfg.WF ∧ stepInput (nextInput s).1 (nextInput s).2 = .next t := by
  unfold step at h
  split at h
  · exact ⟨‹_›, h⟩
  · cases h

/-- An accepted command word answers a next state by its instruction's meaning, or by ILLEGAL_CMD
with nothing else changed. -/
theorem acceptCommand_next {w : CmdWord} {s t : State} (h : acceptCommand w s = .next t) :
    (∃ i, decodeCommand w = .ok i ∧ exec i s = .next t) ∨
    (∃ r, decodeCommand w = .error r ∧ t = endWith s s.S .illegalCmd 0#32) := by
  unfold acceptCommand at h
  split at h
  · next i hd => exact .inl ⟨i, hd, h⟩
  · next r hd =>
    cases h
    exact .inr ⟨r, hd, rfl⟩

/-- Everything an edge of the host port can do (R44, R124). -/
theorem portEdge_next {p : PortSample} {s t : State} (h : portEdge p s = .next t) :
    (p.rst = true ∧ t = hardwareReset s) ∨
    (p.rst = false ∧ s.port = .idle ∧ p.cmdValid = true ∧ acceptCommand p.cmd s = .next t) ∨
    (p.rst = false ∧ s.port = .idle ∧ p.cmdValid = false ∧ t = s) ∨
    (p.rst = false ∧ (∃ r, s.port = .busy 0 r) ∧ p.rspReady = true ∧
      t = { s with port := .idle }) ∨
    (p.rst = false ∧ (∃ r, s.port = .busy 0 r) ∧ p.rspReady = false ∧ t = s) ∨
    (p.rst = false ∧ ∃ left r, s.port = .busy (left + 1) r ∧
      t = { s with port := .busy left r }) := by
  unfold portEdge at h
  split at h
  · next hr =>
    cases h
    exact .inl ⟨hr, rfl⟩
  · next hr =>
    have hr' : p.rst = false := by simpa using hr
    refine .inr ?_
    split at h
    · next hp =>
      split at h
      · next hv => exact .inl ⟨hr', hp, hv, h⟩
      · next hv =>
        cases h
        exact .inr (.inl ⟨hr', hp, by simpa using hv, rfl⟩)
    · next r hp =>
      split at h
      · next hv =>
        cases h
        exact .inr (.inr (.inl ⟨hr', ⟨r, hp⟩, hv, rfl⟩))
      · next hv =>
        cases h
        exact .inr (.inr (.inr (.inl ⟨hr', ⟨r, hp⟩, by simpa using hv, rfl⟩)))
    · next left r hp =>
      cases h
      exact .inr (.inr (.inr (.inr ⟨hr', left, r, hp, rfl⟩)))

/-- Where a command word completes, so does the edge (R44). -/
theorem portEdge_completes (p : PortSample) {s : State}
    (h : ∀ w, ∃ t, acceptCommand w s = .next t) : ∃ t, portEdge p s = .next t := by
  unfold portEdge
  split
  · exact ⟨_, rfl⟩
  · split
    · split
      · exact h p.cmd
      · exact ⟨_, rfl⟩
    · split <;> exact ⟨_, rfl⟩
    · exact ⟨_, rfl⟩

theorem acceptCommand_completes (w : CmdWord) {s : State} (hc : s.cfg.WF)
    (hS : s.S.length = 2 * s.cfg.n) : ∃ t, acceptCommand w s = .next t := by
  unfold acceptCommand
  split
  · exact exec_completes _ hc hS
  · exact ⟨_, rfl⟩

end Sys2Proof.Machine
end

