-- ==== Sys2Proof/Tests/Slice0.lean ====
section
/-! SUPPORT. Tests from the spec's own vectors and worked encodings (V and P numbers are those of
95_test_vectors.md), the WellFormed smoke test, and a witness for the hypotheses of each statement. -/

namespace Sys2Proof.Tests

open Sys2Proof.Machine Sys2Proof.Spec

/-- The spec's two-section example EX2 (95_test_vectors.md). -/
def ex2 : Config :=
  { n := 2
    ca := [BitVec.ofInt 16 (-32000), 500#16, BitVec.ofInt 16 (-32000), 1000#16]
    cb := [12000#16, 24000#16, 12000#16, 16000#16, BitVec.ofInt 16 (-8000), 30000#16] }

/-- A configuration of the greatest size R10 allows. -/
def big : Config :=
  { n := 128, ca := List.replicate 256 0#16, cb := List.replicate 384 0#16 }

/-- The instance `c` with the register file `S` and nothing presented. -/
def withS (c : Config) (S : List Word) : State := { State.resetOf c with S := S }

/-- An edge on which the host does nothing but what is said. -/
def edge (cmdValid : Bool) (cmd : CmdWord) (rspReady : Bool) : PortSample :=
  { rst := false, cmdValid := cmdValid, cmd := cmd, rspReady := rspReady }

def rstEdge : PortSample := { rst := true, cmdValid := true, cmd := 0#48, rspReady := true }

/-- S and the outstanding response after one step. -/
def after (s : State) : Option (List Word × Option RspWord) :=
  match step s with
  | .next t => some (t.S, t.port.outstanding)
  | .fault _ => none
  | .refused _ => none

/-- S and the outstanding response after presenting the command word `w` to `s`. -/
def run (s : State) (w : Nat) : Option (List Word × Option RspWord) := after (s.withFetchWord 48 w)

/-- The MAC unit's output after one instruction. -/
def macOut (i : Instr) : Option Word :=
  match exec i State.reset with
  | .next t => some t.macR
  | .fault _ => none
  | .refused _ => none

/-! ### WellFormed (R50) -/

theorem test_wf_refuses_rds_256 : WellFormed (.rds 256) = false := by decide
theorem test_wf_refuses_wrs_256 : WellFormed (.wrs 256 0#32) = false := by decide
theorem test_wf_accepts_rds_255 : WellFormed (.rds 255) = true := by decide

/-! ### Decoding: words written out from the patterns of R51 and the select of R55 -/

theorem test_decode_filt :
    (decode (.command
      0b000000010000000000000000000000000000000001100100#48)).toOption = some (.filt 100#16) := by
  decide
theorem test_decode_init :
    (decode (.command
      0b000000100000000000000000000000000000000000000000#48)).toOption = some .init := by decide
theorem test_decode_rds :
    (decode (.command
      0b000000111000000100000000000000000000000000000000#48)).toOption = some (.rds 129) := by
  decide
theorem test_decode_wrs :
    (decode (.command
      0b000001000000001110000000000000000000000000000101#48)).toOption =
      some (.wrs 3 0x80000005#32) := by decide
theorem test_decode_macb :
    (decode (.macOp 0#1 7#32 8#32 9#16)).toOption = some (.macb 7#32 8#32 9#16) := by decide
theorem test_decode_maca :
    (decode (.macOp 1#1 7#32 8#32 9#16)).toOption = some (.maca 7#32 8#32 9#16) := by decide
/-- V67, V68, V70, V71, V73, V76, V77, V78. -/
theorem test_decode_reserved :
    [0x0100FFFFFFFF#48, 0x010100000000#48, 0x020000000001#48, 0x02FF00000000#48,
      0x030000000001#48, 0x000000000000#48, 0x050000000000#48, 0xFFFFFFFFFFFF#48].map
      (fun w => (decodeCommand w).toOption) = List.replicate 8 none := by decide
theorem test_table_word_macop :
    (decodeTableWord 8 0, decodeTableWord 8 1, decodeTableWord 8 2) =
      (some (.macb 0#32 0#32 0#16), some (.maca 0#32 0#32 0#16), none) := by decide
/-- R56, R58. -/
theorem test_assemble :
    [AsmLine.filtDec (-1), .rds 1, .wrsDec 1 (-1), .wrsHex 0 0x7FFFFFFF#32, .rds 256].map assemble =
      [some 0x01000000FFFF#48, some 0x030100000000#48, some 0x0401FFFFFFFF#48,
        some 0x04007FFFFFFF#48, none] := by decide

/-! ### The MAC unit -/

/-- V28, V18 (with a = 0 MACB gives MultB). -/
theorem test_macb_floors_down :
    (macOut (.macb 0#32 0xEDCBA988#32 4660#16), macOut (.macb 0#32 0x7FFFFFFF#32 0x8000#16)) =
      (some 0xFFF5A4FA#32, some 0xFE000000#32) := by decide
/-- V35. -/
theorem test_macb_wraps :
    macOut (.macb 0x7FFFFFFF#32 0x00200000#32 1#16) = some 0x80000000#32 := by decide
/-- V36, V37. -/
theorem test_maca :
    (macOut (.maca 0x008EDCE2#32 0x008EDCE2#32 (BitVec.ofInt 16 (-32197))),
      macOut (.maca 0#32 0x80000000#32 0x8000#16)) =
      (some 18562167#32, some 0x80000000#32) := by decide
/-- V19: the doubled high product wraps and the sum wraps back. -/
theorem test_multA_wraps_back : multA 0x8000FFFF#32 0x8000#16 = 0x7FFF0001#32 := by decide

/-! ### The section step and FILT -/

/-- V51: section 1 touches only S[2], S[3]; step c uses the old S[3]. -/
theorem test_section_one :
    sectionStep ex2 [7#32, 8#32, BitVec.ofInt 32 (-123456789), 987654321#32] 1 0xF0000000#32 =
      some (0xF884F2EB#32, [7#32, 8#32, 0x339FDDEB#32, 0xFFFFD957#32]) := by decide
/-- V52: two wraps in one step. -/
theorem test_section_wraps :
    sectionStep ex2 [0#32, 0#32, 0x7FFFFFFF#32, 0x80000000#32] 1 0x7FFFFFFF#32 =
      some (0x80F9FFFE#32, [0#32, 0#32, 0x037723FF#32, 0x05B51EE0#32]) := by decide
/-- R82, V39: the first sample of the reference experiment, run by a step after reset. -/
theorem test_filt_first_sample :
    run State.reset 0x010000007FFF = some ([0x011B3C77#32, 0#32], some 0x000000008E#40) := by decide
/-- P4, second sample: a two-section cascade from a non-zero state. -/
theorem test_filt_cascade :
    run (withS ex2 [0x00AA51FE#32, 0x003858EC#32, 0x00003542#32, 0x0000CE23#32]) 0x010000004E20 =
      some ([0x0188FEFC#32, 0x0035BF9C#32, 0x0001D5EF#32, 0x00033217#32], some 0x0000000001#40) := by
  decide

/-! ### Lifecycle commands and errors -/

/-- V54. -/
theorem test_init :
    run (withS Config.ref [5#32, BitVec.ofInt 32 (-7)]) 0x020000000000 =
      some ([0#32, 0#32], some 0#40) := by decide
/-- V56, V58. -/
theorem test_rds :
    (run (withS Config.ref [0x011B3C77#32, 0#32]) 0x030000000000,
      run (withS Config.ref [0x011B3C77#32, 0#32]) 0x030200000000) =
      (some ([0x011B3C77#32, 0#32], some 0x00011B3C77#40),
        some ([0x011B3C77#32, 0#32], some 0x0200000000#40)) := by decide
/-- V59, V60. -/
theorem test_wrs :
    (run (withS Config.ref [0#32, 0#32]) 0x0401FFFFFFFF,
      run (withS Config.ref [3#32, 4#32]) 0x040200000005) =
      (some ([0#32, 0xFFFFFFFF#32], some 0#40),
        some ([3#32, 4#32], some 0x0200000000#40)) := by decide
/-- V63: decode comes before the range check. -/
theorem test_illegal_before_range :
    run (withS Config.ref [3#32, 4#32]) 0x030200000001 =
      some ([3#32, 4#32], some 0x0100000000#40) := by decide

/-! ### Witnesses for the hypotheses of the statements -/

theorem witness_Shifts : 31 < 32 ∧ 0 < 1 := by decide
theorem witness_MultB_small :
    (0 ≤ (0x001FFFFF#32 : Word).toInt * (1#16 : Coef).toInt ∧
      (0x001FFFFF#32 : Word).toInt * (1#16 : Coef).toInt < 2 ^ 21) ∧
    (-(2 ^ 21) ≤ (0xFFE00000#32 : Word).toInt * (1#16 : Coef).toInt ∧
      (0xFFE00000#32 : Word).toInt * (1#16 : Coef).toInt < 0) := by decide
theorem witness_MultA_range :
    (0x80000001 ≤ (0x80000001#32 : Word).toNat ∧ (0x80000001#32 : Word).toNat ≤ 0x8000FFFF) ∧
    (0x80000001 ≤ (0x8000FFFF#32 : Word).toNat ∧ (0x8000FFFF#32 : Word).toNat ≤ 0x8000FFFF) := by
  decide
theorem witness_Primitives :
    0 < (0x7FFFFFFF#32 : Word).toInt * (32767#16 : Coef).toInt ∧
    (0x80000000#32 : Word).toInt * (1#16 : Coef).toInt < 0 ∧
    ¬((0x80000000#32 : Word) = 0x80000000#32 ∧ (0x8001#16 : Coef) = 0x8000#16) ∧
    0 < (0x80000000#32 : Word).toInt * (0x8001#16 : Coef).toInt ∧
    (0x80000001#32 : Word) ≠ 0x80000000#32 := by decide
theorem witness_Wide : 48 ≤ 48 := by decide
theorem witness_SectionStep :
    ex2.WF ∧ (withS ex2 [1#32, 2#32, 3#32, 4#32]).S.length = 2 * ex2.n ∧ 1 < ex2.n := by decide
theorem witness_SectionReads :
    (SectionReads.mk 3#32 4#32 16000#16 (BitVec.ofInt 16 (-8000)) 30000#16
      (BitVec.ofInt 16 (-32000)) 1000#16).At ex2 [1#32, 2#32, 3#32, 4#32] 1 :=
  ⟨rfl, rfl, rfl, rfl, rfl, rfl, rfl⟩
theorem witness_Inv :
    State.reset.Inv ∧ (withS ex2 [1#32, 2#32, 3#32, 4#32]).Inv ∧
    ({ State.reset with port := .busy 3 0x0200000000#40 } : State).Inv := by decide
theorem witness_Zero :
    (State.resetOf ex2).Inv ∧
    (State.resetOf ex2).S = List.replicate (2 * (State.resetOf ex2).cfg.n) 0#32 ∧
    (withS Config.ref [57#32, 0#32]).cfg = Config.ref := by decide
theorem witness_RefSmall :
    (withS Config.ref [BitVec.ofNat 32 57, 0#32]).cfg = Config.ref ∧ 1 ≤ 57 ∧ 57 ≤ 57 := by decide
theorem witness_Depends :
    ∃ s t s' : State, s ≠ t ∧ t.cfg = s.cfg ∧ t.S = s.S ∧
      acceptCommand 0x010000000001#48 s = .next s' :=
  ⟨State.reset, { State.reset with lat := [5] }, _, by decide, rfl, rfl, rfl⟩
theorem witness_Init :
    opField 0x02FF00000000#48 = 0x02#8 ∧ (0x02FF00000000#48 : CmdWord) ≠ 0x020000000000#48 ∧
    opField 0x020000000001#48 = 0x02#8 ∧ (0x020000000001#48 : CmdWord) ≠ 0x020000000000#48 ∧
    ∃ t, exec .init State.reset = .next t ∧ 1 < 2 * State.reset.cfg.n :=
  ⟨by decide, by decide, by decide, by decide, _, rfl, by decide⟩
theorem witness_Rds_Wrs :
    State.reset.Inv ∧ 1 < 2 * State.reset.cfg.n ∧ 2 * State.reset.cfg.n ≤ 2 ∧ 255 ≤ 255 := by decide
theorem witness_Rds_128 : (State.resetOf big).Inv ∧ (State.resetOf big).cfg.n = 128 ∧ 255 ≤ 255 := by
  exact ⟨⟨⟨⟨by decide, by decide⟩, List.length_replicate, List.length_replicate⟩,
    List.length_replicate, rfl⟩, rfl, le_rfl⟩
theorem witness_LatestWrite :
    ∃ t, State.reset.Inv ∧ 0 < 2 * State.reset.cfg.n ∧ 1 < 2 * State.reset.cfg.n ∧
      exec (.wrs 0 9#32) State.reset = .next t :=
  ⟨_, by decide, by decide, by decide, rfl⟩
theorem witness_Snapshot :
    (withS ex2 [1#32, 2#32, 3#32, 4#32]).Inv ∧ (State.resetOf ex2).Inv ∧
    (State.resetOf ex2).cfg = (withS ex2 [1#32, 2#32, 3#32, 4#32]).cfg := by decide
theorem witness_RoundTrip : WellFormed (.wrs 255 0xFFFFFFFF#32) = true := by decide
theorem witness_Decoded :
    ∃ i j, decode (.command 0x04FFFFFFFFFF#48) = .ok i ∧ decode (.macOp 1#1 0#32 0#32 0#16) = .ok j :=
  ⟨_, _, rfl, rfl⟩
theorem witness_OpcodeMap :
    (∃ i, decodeCommand 0x03FF00000000#48 = .ok i) ∧
    (0x030000000000#48, 0xFF00FFFFFFFF#48) ∈ opcodeMap ∧
    matchesRow 0x03FF00000000#48 (0x030000000000#48, 0xFF00FFFFFFFF#48) = true :=
  ⟨⟨_, rfl⟩, by decide, by decide⟩
theorem witness_Reserved :
    (∃ r, decodeCommand 0x010100000000#48 = .error r) ∧ opField 0x04FFFFFFFFFF#48 = 0x04#8 :=
  ⟨⟨_, rfl⟩, by decide⟩
theorem witness_Assembled :
    (∀ v, AsmLine.wrsDec 255 (-2147483648) ≠ .word v) ∧
    assemble (.wrsDec 255 (-2147483648)) = some 0x04FF80000000#48 ∧
    (AsmLine.wrsDec 255 (-2147483648)).instr = some (.wrs 255 0x80000000#32) :=
  ⟨(fun v h => by cases h), by decide, by decide⟩
theorem witness_ConfigOutOfRange :
    ¬ (State.resetOf { n := 0, ca := [], cb := [] }).cfg.WF ∧
    ¬ (State.resetOf { big with n := 129 }).cfg.WF := by decide
theorem witness_StepRuns :
    ∃ (s : State) (p : PortSample) (rest : List Input) (i : Instr),
      s.cfg.WF ∧ s.inputs = .edge p :: rest ∧ p.rst = false ∧ p.cmdValid = true ∧ s.port = .idle ∧
      decode (.command p.cmd) = .ok i :=
  ⟨{ State.reset with inputs := [.edge (edge true 0x030000000000#48 false)] },
    edge true 0x030000000000#48 false, [], .rds 0, by decide, rfl, rfl, rfl, rfl, rfl⟩
theorem witness_StepAnswersReserved :
    ∃ (s : State) (p : PortSample) (rest : List Input) (r : Reserved),
      s.cfg.WF ∧ s.inputs = .edge p :: rest ∧ p.rst = false ∧ p.cmdValid = true ∧ s.port = .idle ∧
      decode (.command p.cmd) = .error r :=
  ⟨{ State.reset with inputs := [.edge (edge true 0#48 false)] }, edge true 0#48 false, [],
    .unassignedOp, by decide, rfl, rfl, rfl, rfl, rfl⟩
theorem witness_StepRunsMac :
    ∃ (s : State) (rest : List Input), s.cfg.WF ∧ s.inputs = .mac 1#1 2#32 3#32 4#16 :: rest :=
  ⟨{ State.reset with inputs := [.mac 1#1 2#32 3#32 4#16] }, [], by decide, rfl⟩
theorem witness_Idle :
    State.reset.cfg.WF ∧ State.reset.inputs = [] ∧ State.reset.port = .idle := by decide
theorem witness_TableWord :
    State.reset.cfg.WF ∧ decodeTableWord 48 0x0401FFFFFFFF = some (.wrs 1 0xFFFFFFFF#32) ∧
    decodeTableWord 8 1 = some (.maca 0#32 0#32 0#16) := by decide

/-- A state whose next input is the edge `p`. -/
def facing (p : PortSample) (port : Port) : State :=
  { State.reset with port := port, inputs := [.edge p] }

theorem witness_Handshake :
    ((facing (edge false 0#48 false) .idle).cfg.WF ∧ (edge false 0#48 false).rst = false) ∧
    ((facing (edge false 0#48 false) .idle).port = .idle ∧
      (edge false 0#48 false).cmdValid = false) ∧
    (facing (edge true 1#48 true) (.busy 1 0#40)).port = .busy (0 + 1) 0#40 ∧
    ((facing (edge true 1#48 false) (.busy 0 0#40)).port = .busy 0 0#40 ∧
      (edge true 1#48 false).rspReady = false) ∧
    ((facing (edge true 1#48 true) (.busy 0 0#40)).port = .busy 0 0#40 ∧
      (edge true 1#48 true).rspReady = true) := by decide
theorem witness_Latency :
    (facing (edge false 0#48 true) (.busy 1 0#40)).cfg.WF ∧
    ∀ e ∈ (facing (edge false 0#48 true) (.busy 1 0#40)).inputs.take 1,
      ∃ p, e = .edge p ∧ p.rst = false := by
  refine ⟨by decide, fun e he => ?_⟩
  simp only [facing, List.take_succ_cons, List.take_zero, List.mem_singleton] at he
  exact ⟨_, he, rfl⟩
theorem witness_AcceptedLatency :
    ∃ t, acceptCommand 0#48 { State.reset with lat := [4, 7] } = .next t := ⟨_, rfl⟩
/-- The register file of the wrong length is a state reset must also cover (93 S1). -/
theorem witness_Reset :
    ∃ (s : State) (rest : List Input), s.S.length ≠ 2 * s.cfg.n ∧ s.cfg.WF ∧
      s.inputs = .edge rstEdge :: rest ∧ rstEdge.rst = true ∧ s.port = .busy 0 0#40 :=
  ⟨{ facing rstEdge (.busy 0 0#40) with S := [1#32] }, [], by decide, by decide, rfl, rfl, rfl⟩
theorem witness_ResetAndInit :
    ∃ s t u : State, s.inputs = [.edge rstEdge] ∧ step s = .next t ∧ exec .init s = .next u :=
  ⟨facing rstEdge .idle, _, _, rfl, rfl, rfl⟩
theorem witness_ConfigurationNeverChanges :
    ∃ t u, step State.reset = .next t ∧ exec (.wrs 1 2#32) State.reset = .next u := ⟨_, _, rfl, rfl⟩
theorem witness_StepKeeps :
    ∃ t, (facing (edge true 0x010000000001#48 false) .idle).Inv ∧
      step (facing (edge true 0x010000000001#48 false) .idle) = .next t :=
  ⟨_, by decide, rfl⟩

/-- A host that writes S[1], takes the response, and asks for S[1]. -/
def script : State :=
  { State.reset with
    inputs := [.edge (edge true 0x040100000005#48 false), .edge (edge false 0#48 true),
      .edge (edge true 0x030100000000#48 true)] }

theorem witness_OneResponse :
    ∃ t, script.Inv ∧ (∀ e ∈ script.inputs, e.noReset = true) ∧
      observe 3 script = some ([0x040100000005#48, 0x030100000000#48], [0#40], t) :=
  ⟨_, by decide, by decide, rfl⟩
theorem witness_Engines :
    ∃ sys', runSystem [0, 1, 0] [script, State.resetOf ex2] = some sys' ∧
      [script, State.resetOf ex2][1]? = some (State.resetOf ex2) := ⟨_, rfl, rfl⟩

end Sys2Proof.Tests
end

section
/-! SUPPORT. The decoder's answer for each opcode (R54), the rows of the opcode map as conditions on
the fields (R51), the reserved words (R52), and the statements of the encoding settled with them. -/

namespace Sys2Proof

/-! ### What the decoder answers for each opcode -/

theorem decodeCommand_of_opFilt {w : CmdWord} (h : opField w = 0x01#8) :
    decodeCommand w =
      if idxField w = 0#8 ∧ dataHi w = 0#16 then .ok (.filt (dataLo w)) else .error .filtField :=
  if_pos h

theorem decodeCommand_of_opInit {w : CmdWord} (h : opField w = 0x02#8) :
    decodeCommand w =
      if idxField w = 0#8 ∧ dataHi w = 0#16 ∧ dataLo w = 0#16 then .ok .init
      else .error .initField := by
  simp [decodeCommand, h]

theorem decodeCommand_of_opRds {w : CmdWord} (h : opField w = 0x03#8) :
    decodeCommand w =
      if dataHi w = 0#16 ∧ dataLo w = 0#16 then .ok (.rds (idxField w).toNat)
      else .error .rdsField := by
  simp [decodeCommand, h]

theorem decodeCommand_of_opWrs {w : CmdWord} (h : opField w = 0x04#8) :
    decodeCommand w = .ok (.wrs (idxField w).toNat (dataHi w ++ dataLo w)) := by
  simp [decodeCommand, h]

theorem decodeCommand_of_opUnassigned {w : CmdWord}
    (h : opField w = 0x00#8 ∨ 5 ≤ (opField w).toNat) :
    decodeCommand w = .error .unassignedOp := by
  unfold decodeCommand
  rw [if_neg (by bv_omega), if_neg (by bv_omega), if_neg (by bv_omega), if_neg (by bv_omega)]

/-- The opcodes of the four commands, and the unassigned ones of R52 (a). -/
theorem opcode_cases (op : BitVec 8) :
    op = 0x01#8 ∨ op = 0x02#8 ∨ op = 0x03#8 ∨ op = 0x04#8 ∨ (op = 0x00#8 ∨ 5 ≤ op.toNat) := by
  bv_omega

/-! ### The patterns of the opcode map -/

/-- A command word written with `data` in one piece (R47, R49). -/
theorem append_data_eq_cmdWord (op idx : BitVec 8) (v : Word) :
    op ++ idx ++ v = cmdWord op idx (v.extractLsb' 16 16) (v.extractLsb' 0 16) := by
  rw [cmdWord, BitVec.append_assoc (x₁ := op ++ idx), BitVec.cast_eq, halves_append]

theorem decodeCommand_filtPattern (s : Sample) :
    decodeCommand (0x01#8 ++ 0#8 ++ 0#16 ++ s) = .ok (.filt s) := by
  change decodeCommand (cmdWord 0x01#8 0#8 0#16 s) = _
  rw [decodeCommand_of_opFilt (opField_cmdWord ..), idxField_cmdWord, dataHi_cmdWord,
    dataLo_cmdWord, if_pos ⟨rfl, rfl⟩]

theorem decodeCommand_initPattern : decodeCommand (0x02#8 ++ 0#40) = .ok .init := by
  rw [decodeCommand_of_opInit (by decide), if_pos (by decide)]

theorem decodeCommand_rdsPattern (k : BitVec 8) :
    decodeCommand (0x03#8 ++ k ++ 0#32) = .ok (.rds k.toNat) := by
  rw [append_data_eq_cmdWord, decodeCommand_of_opRds (opField_cmdWord ..), idxField_cmdWord,
    dataHi_cmdWord, dataLo_cmdWord, if_pos (by decide)]

theorem decodeCommand_wrsPattern (k : BitVec 8) (v : Word) :
    decodeCommand (0x04#8 ++ k ++ v) = .ok (.wrs k.toNat v) := by
  rw [append_data_eq_cmdWord, decodeCommand_of_opWrs (opField_cmdWord ..), idxField_cmdWord,
    dataHi_cmdWord, dataLo_cmdWord, halves_append]

/-! ### The rows of the opcode map -/

theorem cmdWord_inj {o o' k k' : BitVec 8} {h h' l l' : BitVec 16} :
    cmdWord o k h l = cmdWord o' k' h' l' ↔ o = o' ∧ k = k' ∧ h = h' ∧ l = l' := by
  refine ⟨fun e => ⟨?_, ?_, ?_, ?_⟩, fun ⟨ho, hk, hh, hl⟩ => by rw [ho, hk, hh, hl]⟩
  · simpa only [opField_cmdWord] using congrArg opField e
  · simpa only [idxField_cmdWord] using congrArg idxField e
  · simpa only [dataHi_cmdWord] using congrArg dataHi e
  · simpa only [dataLo_cmdWord] using congrArg dataLo e

/-- A word matches a row exactly when each of its fields, masked, is the row's. -/
theorem matchesRow_iff_fields {row : CmdWord × CmdWord} {o k o' k' : BitVec 8}
    {h l h' l' : BitVec 16} (hrow : row = (cmdWord o k h l, cmdWord o' k' h' l')) (w : CmdWord) :
    matchesRow w row = true ↔
      opField w &&& o' = o ∧ idxField w &&& k' = k ∧ dataHi w &&& h' = h ∧ dataLo w &&& l' = l := by
  conv_lhs => rw [hrow, ← cmdWord_fields w]
  rw [matchesRow, beq_iff_eq, Laws.EncodingInRow.cmdWord_and, cmdWord_inj]

theorem matchesRow_filt_iff (w : CmdWord) :
    matchesRow w (0x010000000000#48, 0xFFFFFFFF0000#48) = true ↔
      opField w = 0x01#8 ∧ idxField w = 0#8 ∧ dataHi w = 0#16 := by
  rw [matchesRow_iff_fields (o := 0x01#8) (k := 0#8) (h := 0#16) (l := 0#16) (o' := .allOnes 8)
    (k' := .allOnes 8) (h' := .allOnes 16) (l' := 0#16) (by decide)]
  simp only [BitVec.and_allOnes, BitVec.and_zero, and_true]

theorem matchesRow_init_iff (w : CmdWord) :
    matchesRow w (0x020000000000#48, 0xFFFFFFFFFFFF#48) = true ↔
      opField w = 0x02#8 ∧ idxField w = 0#8 ∧ dataHi w = 0#16 ∧ dataLo w = 0#16 := by
  rw [matchesRow_iff_fields (o := 0x02#8) (k := 0#8) (h := 0#16) (l := 0#16) (o' := .allOnes 8)
    (k' := .allOnes 8) (h' := .allOnes 16) (l' := .allOnes 16) (by decide)]
  simp only [BitVec.and_allOnes]

theorem matchesRow_rds_iff (w : CmdWord) :
    matchesRow w (0x030000000000#48, 0xFF00FFFFFFFF#48) = true ↔
      opField w = 0x03#8 ∧ dataHi w = 0#16 ∧ dataLo w = 0#16 := by
  rw [matchesRow_iff_fields (o := 0x03#8) (k := 0#8) (h := 0#16) (l := 0#16) (o' := .allOnes 8)
    (k' := 0#8) (h' := .allOnes 16) (l' := .allOnes 16) (by decide)]
  simp only [BitVec.and_allOnes, BitVec.and_zero, true_and]

theorem matchesRow_wrs_iff (w : CmdWord) :
    matchesRow w (0x040000000000#48, 0xFF0000000000#48) = true ↔ opField w = 0x04#8 := by
  rw [matchesRow_iff_fields (o := 0x04#8) (k := 0#8) (h := 0#16) (l := 0#16) (o' := .allOnes 8)
    (k' := 0#8) (h' := 0#16) (l' := 0#16) (by decide)]
  simp only [BitVec.and_allOnes, BitVec.and_zero, and_true]

theorem mem_opcodeMap_iff {row : CmdWord × CmdWord} :
    row ∈ opcodeMap ↔ row = (0x010000000000#48, 0xFFFFFFFF0000#48) ∨
      row = (0x020000000000#48, 0xFFFFFFFFFFFF#48) ∨
      row = (0x030000000000#48, 0xFF00FFFFFFFF#48) ∨
      row = (0x040000000000#48, 0xFF0000000000#48) := by
  simp only [opcodeMap, List.mem_cons, List.not_mem_nil, or_false]

/-- A decoded word lies in its command's row (R51). -/
theorem opcodeRow_of_decodeCommand {w : CmdWord} {i : Instr} (h : decodeCommand w = .ok i) :
    ∃ row ∈ opcodeMap, opcodeRow i = some row ∧ matchesRow w row = true := by
  obtain ⟨rfl, hw⟩ | ⟨rfl, hw⟩ | ⟨rfl, hw⟩ | ⟨rfl, hw⟩ := decodeCommand_ok h
  · exact ⟨_, mem_opcodeMap_iff.2 (.inl rfl), rfl, (matchesRow_filt_iff w).2 hw⟩
  · exact ⟨_, mem_opcodeMap_iff.2 (.inr (.inl rfl)), rfl, (matchesRow_init_iff w).2 hw⟩
  · exact ⟨_, mem_opcodeMap_iff.2 (.inr (.inr (.inl rfl))), rfl, (matchesRow_rds_iff w).2 hw⟩
  · exact ⟨_, mem_opcodeMap_iff.2 (.inr (.inr (.inr rfl))), rfl, (matchesRow_wrs_iff w).2 hw⟩

/-- A word that matches a row decodes to that row's command (R51). -/
theorem decodeCommand_of_matchesRow {w : CmdWord} {row : CmdWord × CmdWord} (hrow : row ∈ opcodeMap)
    (hm : matchesRow w row = true) : ∃ i, decodeCommand w = .ok i ∧ opcodeRow i = some row := by
  obtain rfl | rfl | rfl | rfl := mem_opcodeMap_iff.1 hrow
  · obtain ⟨hop, hfields⟩ := (matchesRow_filt_iff w).1 hm
    exact ⟨_, (decodeCommand_of_opFilt hop).trans (if_pos hfields), rfl⟩
  · obtain ⟨hop, hfields⟩ := (matchesRow_init_iff w).1 hm
    exact ⟨_, (decodeCommand_of_opInit hop).trans (if_pos hfields), rfl⟩
  · obtain ⟨hop, hfields⟩ := (matchesRow_rds_iff w).1 hm
    exact ⟨_, (decodeCommand_of_opRds hop).trans (if_pos hfields), rfl⟩
  · exact ⟨_, decodeCommand_of_opWrs ((matchesRow_wrs_iff w).1 hm), rfl⟩

/-- At most one row matches a word: the row is that of the one command it decodes to (R51). -/
theorem matchesRow_unique {w : CmdWord} {r1 r2 : CmdWord × CmdWord} (h1 : r1 ∈ opcodeMap)
    (h2 : r2 ∈ opcodeMap) (hm1 : matchesRow w r1 = true) (hm2 : matchesRow w r2 = true) :
    r1 = r2 := by
  obtain ⟨i, hi, hr1⟩ := decodeCommand_of_matchesRow h1 hm1
  obtain ⟨j, hj, hr2⟩ := decodeCommand_of_matchesRow h2 hm2
  obtain rfl : i = j := Except.ok.inj (hi.symm.trans hj)
  exact Option.some.inj (hr1.symm.trans hr2)

/-- Settles O26: each row is a condition on the fields of the word, the one under which the decoder
answers that row's command; the rows are disjoint because the decoder is a function. -/
theorem decoderFollowsTheOpcodeMap : Obligations.DecoderFollowsTheOpcodeMap :=
  ⟨rfl, decodeCommand_filtPattern, decodeCommand_initPattern, decodeCommand_rdsPattern,
    decodeCommand_wrsPattern, fun _ _ => opcodeRow_of_decodeCommand,
    fun _ _ => decodeCommand_of_matchesRow, fun _ _ _ => matchesRow_unique⟩

/-! ### Reserved encodings -/

/-- A line of the decoder that has reserved fields refuses exactly when its field check fails. -/
theorem exists_ite_eq_error_iff {P : Prop} [Decidable P] {i : Instr} {e : Reserved} :
    (∃ r, (if P then .ok i else .error e : Except Reserved Instr) = .error r) ↔ ¬P := by
  by_cases hP : P <;> simp [hP]

/-- The reserved words are those of R52, (a) to (d). -/
theorem decodeCommand_error_iff (w : CmdWord) :
    (∃ r, decodeCommand w = .error r) ↔
      (opField w = 0x00#8 ∨ 5 ≤ (opField w).toNat) ∨
      (opField w = 0x01#8 ∧ (idxField w ≠ 0#8 ∨ dataHi w ≠ 0#16)) ∨
      (opField w = 0x02#8 ∧ (idxField w ≠ 0#8 ∨ dataHi w ≠ 0#16 ∨ dataLo w ≠ 0#16)) ∨
      (opField w = 0x03#8 ∧ (dataHi w ≠ 0#16 ∨ dataLo w ≠ 0#16)) := by
  obtain hop | hop | hop | hop | hop := opcode_cases (opField w)
  · rw [decodeCommand_of_opFilt hop, exists_ite_eq_error_iff]
    simp [hop, -not_and, not_and_or]
  · rw [decodeCommand_of_opInit hop, exists_ite_eq_error_iff]
    simp [hop, -not_and, not_and_or]
  · rw [decodeCommand_of_opRds hop, exists_ite_eq_error_iff]
    simp [hop, -not_and, not_and_or]
  · simp [decodeCommand_of_opWrs hop, hop]
  · exact iff_of_true ⟨_, decodeCommand_of_opUnassigned hop⟩ (.inl hop)

end Sys2Proof

namespace Sys2Proof.Machine

open Sys2Proof.Spec

/-- A command that ends with a register file and a response changes nothing else (R19). -/
theorem endsWith_respond (s : State) (S' : List Word) (st : Status) (d : Word) :
    EndsWith (.next (respond st d { s with S := S' })) s S' (rspWord st d) :=
  ⟨_, _, rfl⟩

/-- R110: a reserved encoding raises ILLEGAL_CMD. -/
theorem acceptCommand_of_error {w : CmdWord} {r : Reserved} (h : decodeCommand w = .error r)
    (s : State) : acceptCommand w s = .next (raiseStatus .illegalCmd s) := by
  simp [acceptCommand, h]

theorem rspWord_illegalCmd : rspWord .illegalCmd 0#32 = 0x0100000000#40 := by decide

theorem rspWord_indexRange : rspWord .indexRange 0#32 = 0x0200000000#40 := by decide

/-- Settles O27, by the opcode: each of the four commands' lines refuses when its field check fails,
every other opcode is refused, and the answer is the decoder's refusal raised as a status. -/
theorem reservedEncodingsAreIllegal : Obligations.ReservedEncodingsAreIllegal := by
  refine ⟨decodeCommand_error_iff, fun w s r h => ?_, fun w h => ⟨_, decodeCommand_of_opWrs h⟩,
    ⟨_, decodeCommand_of_opUnassigned (.inl (by decide))⟩⟩
  rw [acceptCommand_of_error h, ← rspWord_illegalCmd]
  exact endsWith_respond s s.S .illegalCmd 0#32

/-- Settles O28: the commands are instances of the patterns of R51, and each refused word fails the
field check of its opcode. -/
theorem workedEncodingsDecode : Obligations.WorkedEncodingsDecode :=
  ⟨decodeCommand_filtPattern 0x7FFF#16, decodeCommand_filtPattern 0xFFFF#16,
    decodeCommand_filtPattern 0x8000#16, decodeCommand_filtPattern 0#16, decodeCommand_initPattern,
    decodeCommand_rdsPattern 1#8, decodeCommand_wrsPattern 0#8 0x7FFFFFFF#32,
    decodeCommand_wrsPattern 1#8 0xFFFFFFFF#32,
    decodeCommand_of_opUnassigned (by decide), decodeCommand_of_opUnassigned (by decide),
    (decodeCommand_of_opFilt (by decide)).trans (if_neg (by decide)),
    (decodeCommand_of_opFilt (by decide)).trans (if_neg (by decide)),
    (decodeCommand_of_opInit (by decide)).trans (if_neg (by decide)),
    (decodeCommand_of_opRds (by decide)).trans (if_neg (by decide))⟩

/-- Settles O29: the fields are the laws of the response word, the examples an evaluation. -/
theorem responseFieldsHoldStatusAndData : Obligations.ResponseFieldsHoldStatusAndData :=
  ⟨fun st d => ⟨rspStatus_rspWord st d, rspData_rspWord st d⟩, by decide, by decide, by decide,
    by decide, rspWord_illegalCmd, rspWord_indexRange⟩

end Sys2Proof.Machine
end

section
/-! SUPPORT. Widening and the output sample (R62, R66, R67), what FILT leaves when its cascade
completes (R61, R69), the zeroed state (R71), and the statements of the filter operation settled
with them. -/

namespace Sys2Proof.Machine

open Sys2Proof.Spec

/-! ### Widening -/

/-- R62: s · 2^15 fits 32 bits, so the left shift does not wrap. -/
theorem widen_toInt (x : Sample) : (widen x).toInt = x.toInt * 32768 := by
  have hx := coef_bounds x
  rw [widen, lsl_eq_ofInt, sext32_toInt]
  exact toInt_ofInt_of_range (by omega) (by omega)

/-- The low 17 bits of a sign-extended sample: the sample under one more copy of its sign. -/
theorem sext32_low17 (x : Sample) : (sext32 x).extractLsb' 0 17 = x.extractLsb' 15 1 ++ x := by
  ext i hi
  rw [sext32, BitVec.getElem_extractLsb', BitVec.getElem_append, Nat.zero_add,
    BitVec.getLsbD_signExtend]
  by_cases h : i < 16
  · simp [h, show i < 32 by omega]
  · obtain rfl : i = 16 := by omega
    simp [BitVec.msb_eq_getLsbD_last]

/-- R62: the bit pattern of the widened sample. -/
theorem widen_eq_append (x : Sample) : widen x = x.extractLsb' 15 1 ++ x ++ 0#15 := by
  rw [widen, lsl, BitVec.shiftLeft_eq_concat_of_lt (by decide), BitVec.cast_eq]
  exact congrArg (· ++ 0#15) (sext32_low17 x)

/-- R62: bits 31 and 30 of the widened sample are copies of its sign. -/
theorem widen_sign_bits (x : Sample) : (widen x).getLsbD 31 = (widen x).getLsbD 30 := by
  simp [widen, lsl, sext32, BitVec.getElem_signExtend, BitVec.msb_eq_getLsbD_last]

/-- Settles O13: the value is the exact product, its range the sample's times 2^15, and the low bits
are those of the bit pattern. -/
theorem wideningNeverWraps : Obligations.WideningNeverWraps := by
  intro x
  have hx := coef_bounds x
  have hw := widen_toInt x
  have hlow : (widen x).extractLsb' 0 15 = 0#15 := by
    rw [widen_eq_append]
    exact BitVec.extractLsb'_append_eq_right
  exact ⟨hw, by omega, hlow, widen_sign_bits x, widen_eq_append x⟩

/-! ### The output sample -/

/-- The upper half of an accumulator is in the range of a sample (R66). -/
theorem asr16_bounds (acc : Word) :
    -32768 ≤ (asr acc 16).toInt ∧ (asr acc 16).toInt ≤ 32767 := by
  have h := word_bounds acc
  rw [asr_toInt]
  omega

/-- R66: below the copies of the sign the shift leaves the upper half. -/
theorem outputSample_eq_extract (acc : Word) : outputSample acc = acc.extractLsb' 16 16 := by
  ext i hi
  simp only [outputSample, asr, BitVec.getElem_extractLsb', BitVec.getLsbD_sshiftRight,
    Nat.zero_add]
  simp [show ¬ 32 ≤ i by omega, show 16 + i < 32 by omega]

/-- A word in the range of a sample keeps its value when wrapped to 16 bits (R67). -/
theorem toInt_low16_of_range {v : Word} (h1 : -32768 ≤ v.toInt) (h2 : v.toInt ≤ 32767) :
    (v.extractLsb' 0 16).toInt = v.toInt := by
  have hv := word_toInt_cases v
  rw [BitVec.toInt_eq_toNat_cond, BitVec.extractLsb'_toNat, Nat.shiftRight_zero]
  split <;> omega

/-- Settles O14: the floor is the shift's, its range keeps wrap16 from changing it. -/
theorem outputSampleIsTheUpperHalf : Obligations.OutputSampleIsTheUpperHalf := by
  refine ⟨fun acc => ?_, by decide, by decide, by decide⟩
  obtain ⟨hlo, hhi⟩ := asr16_bounds acc
  exact ⟨asr_toInt acc 16, ⟨hlo, hhi⟩, outputSample_eq_extract acc, toInt_low16_of_range hlo hhi⟩

/-! ### What FILT leaves -/

/-- R61, R69: a sample whose cascade completes ends the command with OK and the output sample. -/
theorem exec_filt_of_filterSample {s : State} {x out : Sample} {S' : List Word}
    (h : filterSample s.cfg s.S x = some (out, S')) :
    exec (.filt x) s = .next (endWith s S' .ok (sext32 out)) := by
  simp [exec, execFilt, h, endWith]

/-- The response of a command that ended with OK and data 0. -/
theorem rspWord_ok_zero : rspWord .ok 0#32 = 0#40 := by decide

/-- A sample that returns 0 and leaves S as it is ends with the old S and the response OK 0. -/
theorem exec_filt_of_fixed {s : State} {x : Sample}
    (h : filterSample s.cfg s.S x = some (0#16, s.S)) :
    exec (.filt x) s = .next (endWith s s.S .ok 0#32) :=
  exec_filt_of_filterSample h

/-- Such a command in the terms of the statements. -/
theorem endsWith_filt_of_fixed {s : State} {x : Sample}
    (h : filterSample s.cfg s.S x = some (0#16, s.S)) :
    EndsWith (exec (.filt x) s) s s.S 0#40 := by
  rw [exec_filt_of_fixed h, ← rspWord_ok_zero]
  exact endsWith_respond s s.S .ok 0#32

/-! ### The zeroed state -/

@[simp] theorem highProduct_zero_left (c : Coef) : highProduct 0#32 c = 0#32 := by
  rw [highProduct, show hiHalf 0#32 = 0#32 by decide, BitVec.zero_mul]

@[simp] theorem lowProduct_zero_left (c : Coef) : lowProduct 0#32 c = 0#32 := by
  rw [lowProduct, show loHalf 0#32 = 0#32 by decide, BitVec.zero_mul]

@[simp] theorem multB_zero_left (c : Coef) : multB 0#32 c = 0#32 := by
  rw [multB, highProduct_zero_left, lowProduct_zero_left]
  decide

@[simp] theorem multA_zero_left (c : Coef) : multA 0#32 c = 0#32 := by
  rw [multA, highProduct_zero_left, lowProduct_zero_left]
  decide

/-- A section of zero words takes accumulator 0 to accumulator 0 and leaves its words 0: every
product in it has a factor 0 (R71). -/
theorem sectionStep_zeroS {c : Config} {i : Nat} (hc : c.WF) (hi : i < c.n) :
    sectionStep c (zeroS c) i 0#32 = some (0#32, zeroS c) := by
  obtain ⟨-, -, b0, b1, b2, a1, a2, -, -, hb0, hb1, hb2, ha1, ha2⟩ :=
    section_words hc (zeroS_length c) hi
  rw [sectionStep_eq (readS_zeroS (by omega)) (readS_zeroS (by omega)) hb0 hb1 hb2 ha1 ha2]
  simp [zeroS]

/-- Any number of the sections of a zeroed instance pass accumulator 0 on. -/
theorem cascade_zeroS {c : Config} (hc : c.WF) (m : Nat) (hm : m ≤ c.n) :
    cascade c (zeroS c) 0#32 m = some (0#32, zeroS c) := by
  induction m with
  | zero => exact cascade_zero ..
  | succ m ih => exact cascade_succ_some.2 ⟨0#32, zeroS c, ih (by omega), sectionStep_zeroS hc hm⟩

/-- R71: sample 0 from the zeroed state returns 0 and leaves the state zeroed. -/
theorem filterSample_zeroS {c : Config} (hc : c.WF) :
    filterSample c (zeroS c) 0#16 = some (0#16, zeroS c) :=
  filterSample_some.2 ⟨0#32, cascade_zeroS hc c.n le_rfl, by decide⟩

theorem execAll_cons_of_next {i : Instr} {is : List Instr} {s t : State} (h : exec i s = .next t) :
    execAll (i :: is) s = execAll is t := by
  rw [execAll, h]

/-- A sample that returns 0 and leaves S as it is does so any positive number of times. -/
theorem execAll_filt_of_fixed {x : Sample} (m : Nat) {s : State}
    (h : filterSample s.cfg s.S x = some (0#16, s.S)) :
    ∃ t, execAll (List.replicate (m + 1) (.filt x)) s = .next t ∧
      t.S = s.S ∧ t.port.outstanding = some 0#40 := by
  induction m generalizing s with
  | zero =>
    exact ⟨_, execAll_cons_of_next (exec_filt_of_fixed h), rfl, congrArg some rspWord_ok_zero⟩
  | succ m ih =>
    rw [List.replicate_succ, execAll_cons_of_next (exec_filt_of_fixed h)]
    exact ih (s := endWith s s.S .ok 0#32) h

/-- Settles O16: FILT 0 returns 0 and leaves S as it is, on the zeroed state by induction over the
sections and on the two states of REF by evaluation, so any number of them does. -/
theorem zeroInputKeepsAZeroedState : Obligations.ZeroInputKeepsAZeroedState := by
  refine ⟨fun s ⟨hc, _, _⟩ hS => ?_, fun s hcfg hS => endsWith_filt_of_fixed ?_⟩
  · have hfix : filterSample s.cfg s.S 0#16 = some (0#16, s.S) := by
      rw [hS]
      exact filterSample_zeroS hc
    exact ⟨endsWith_filt_of_fixed hfix, fun m => execAll_filt_of_fixed m hfix⟩
  · obtain hS | hS := hS <;> rw [hcfg, hS] <;> decide

end Sys2Proof.Machine
end

section
/-! SUPPORT. The words a section step reads, in the terms of the statements, the words it leaves in
its own section (R74), and the statement of the section pipeline settled with them. -/

namespace Sys2Proof.Machine

open Sys2Proof.Spec

/-- R42: section `i` of a well-formed instance has the seven words its step reads. -/
theorem exists_sectionReads_at {c : Config} {S : List Word} {i : Nat} (hc : c.WF)
    (hS : S.length = 2 * c.n) (hi : i < c.n) : ∃ d : SectionReads, d.At c S i := by
  obtain ⟨s0, s1, b0, b1, b2, a1, a2, hwords⟩ := section_words hc hS hi
  exact ⟨⟨s0, s1, b0, b1, b2, a1, a2⟩, hwords⟩

/-- R74: the section step on the words it reads. -/
theorem sectionStep_of_at {c : Config} {S : List Word} {i : Nat} {d : SectionReads}
    (hd : d.At c S i) (acc : Word) :
    sectionStep c S i acc =
      some (multB acc d.b0 + d.s0,
        (S.set (2 * i)
          ((d.s1 + multB acc d.b1) - multA (multB acc d.b0 + d.s0) d.a1)).set (2 * i + 1)
          (multB acc d.b2 - multA (multB acc d.b0 + d.s0) d.a2)) := by
  obtain ⟨h0, h1, hb0, hb1, hb2, ha1, ha2⟩ := hd
  exact sectionStep_eq h0 h1 hb0 hb1 hb2 ha1 ha2

/-- The two words written last at neighbouring indices are the ones read there. -/
theorem getElem?_set_pair {S : List Word} {k : Nat} (hk : k + 1 < S.length) (u v : Word) :
    ((S.set k u).set (k + 1) v)[k]? = some u ∧ ((S.set k u).set (k + 1) v)[k + 1]? = some v := by
  constructor
  · rw [List.getElem?_set_ne k.succ_ne_self, List.getElem?_set_self (Nat.lt_of_succ_lt hk)]
  · rw [List.getElem?_set_self (hk.trans_eq List.length_set.symm)]

/-- Settles O10: the step's result is written out in the words it reads, its two writes are read
back, and its length and frame are those of any section step. -/
theorem sectionStepFollowsItsPseudocode : Obligations.SectionStepFollowsItsPseudocode := by
  intro c S i acc hc hS hi
  obtain ⟨d, hd⟩ := exists_sectionReads_at hc hS hi
  have hstep := sectionStep_of_at hd acc
  obtain ⟨hs0, hs1⟩ := getElem?_set_pair (S := S) (k := 2 * i) (by omega)
    ((d.s1 + multB acc d.b1) - multA (multB acc d.b0 + d.s0) d.a1)
    (multB acc d.b2 - multA (multB acc d.b0 + d.s0) d.a2)
  exact ⟨d, hd, _, _, _, _, rfl, rfl, rfl, hstep, sectionStep_length hstep, hs0, hs1,
    fun _ => sectionStep_other hstep⟩

end Sys2Proof.Machine
end

section
/-! SUPPORT. The extreme values of the exact product (R86, R88), the closed forms of MultB and MultA
over it, the wide multiply (R95), and the statements of the MAC unit settled with them. -/

namespace Sys2Proof.Machine

/-! ### The two pairs of extreme operands -/

theorem word_toInt_eq_min_iff {x : Word} : x.toInt = -2147483648 ↔ x = 0x80000000#32 := by
  rw [← BitVec.toInt_inj, show (0x80000000#32 : Word).toInt = -2147483648 by decide]

theorem coef_toInt_eq_min_iff {c : Coef} : c.toInt = -32768 ↔ c = 0x8000#16 := by
  rw [← BitVec.toInt_inj, show (0x8000#16 : Coef).toInt = -32768 by decide]

/-- Away from the coefficient -2^15 the magnitude of a product is smaller. -/
theorem abs_mul_coef_le {p m : Int} {c : Coef} (hc : c.toInt ≠ -32768) (hlo : -m ≤ p)
    (hhi : p ≤ m) : |p * c.toInt| ≤ m * 32767 := by
  obtain ⟨hc1, hc2⟩ := coef_bounds c
  rw [abs_mul]
  exact mul_le_mul (abs_le.2 ⟨hlo, hhi⟩) (abs_le.2 ⟨by omega, hc2⟩) (abs_nonneg _) (by omega)

/-- A product with a coefficient reaches the magnitude of both lower ends only where both factors
stand there. -/
theorem le_mul_coef_iff {p m : Int} (c : Coef) (hlo : -m ≤ p) (hhi : p < m) :
    m * 32768 ≤ p * c.toInt ↔ p = -m ∧ c.toInt = -32768 := by
  by_cases hc : c.toInt = -32768
  · rw [hc]
    omega
  · have hb := (abs_le.1 (abs_mul_coef_le hc hlo hhi.le)).2
    omega

/-- R86: the bounds of the exact product. -/
theorem product_bounds (x : Word) (c : Coef) :
    -70368744144896 ≤ x.toInt * c.toInt ∧ x.toInt * c.toInt ≤ 70368744177664 := by
  obtain ⟨hlo, hhi⟩ := word_bounds x
  have hb := mul_coef_bounds c hlo hhi (by omega) (by omega)
  omega

/-- R86, R88: the product reaches 2^46 for one operand pair only. -/
theorem le_product_iff (x : Word) (c : Coef) :
    70368744177664 ≤ x.toInt * c.toInt ↔ x.toInt = -2147483648 ∧ c.toInt = -32768 := by
  obtain ⟨hlo, hhi⟩ := word_bounds x
  exact le_mul_coef_iff c (m := 2147483648) hlo (by omega)

/-- R86: only the coefficient -2^15 takes the product below -2^46 + 2^21. -/
theorem product_lt_iff (x : Word) (c : Coef) :
    x.toInt * c.toInt < -70368742080512 ↔ c.toInt = -32768 ∧ 2147483648 - 63 ≤ x.toInt := by
  obtain ⟨hlo, hhi⟩ := word_bounds x
  by_cases hc : c.toInt = -32768
  · rw [hc]
    omega
  · have hb := (abs_le.1 (abs_mul_coef_le (m := 2147483648) hc hlo (by omega))).1
    omega

/-- R14: the 32-bit wrap keeps exactly the integers in range. -/
theorem toInt_ofInt_eq_iff {z : Int} :
    (BitVec.ofInt 32 z).toInt = z ↔ -2147483648 ≤ z ∧ z ≤ 2147483647 :=
  ⟨fun h => h ▸ word_bounds (BitVec.ofInt 32 z), fun ⟨h1, h2⟩ => toInt_ofInt_of_range h1 h2⟩

/-! ### MultB -/

/-- R86: MultB is the exact floor. The partial sum is the product divided by 2^16, which fits. -/
theorem multB_toInt (x : Word) (c : Coef) : (multB x c).toInt = x.toInt * c.toInt / 2 ^ 21 := by
  have hz := product_bounds x c
  have hsplit := product_split x c
  have hsum : (highProduct x c).toInt + (asr (lowProduct x c) 16).toInt =
      x.toInt * c.toInt / 65536 := by
    rw [asr_toInt, highProduct_toInt, lowProduct_toInt]
    omega
  rw [multB, asr_toInt, add_toInt_of_range (by omega) (by omega), hsum]
  omega

@[simp] theorem multB_zero_right (x : Word) : multB x 0#16 = 0#32 := by
  apply BitVec.eq_of_toInt_eq
  rw [multB_toInt]
  simp

/-- Settles O4: MultB is the floor of the product, whose bounds and extreme values are known. -/
theorem multBIsFloorOfExactProduct : Obligations.MultBIsFloorOfExactProduct := by
  refine ⟨multB_toInt, fun x c => ?_, fun x c => ?_, fun x c => ?_, by decide, multB_zero_left,
    multB_zero_right, fun x c h0 h1 => BitVec.eq_of_toInt_eq ?_, fun x c h0 h1 => ?_⟩
  · have hz := product_bounds x c
    rw [multB_toInt]
    omega
  · have hz := product_bounds x c
    rw [multB_toInt, ← le_product_iff]
    omega
  · have hz := product_bounds x c
    rw [multB_toInt, ← product_lt_iff]
    omega
  · rw [multB_toInt, BitVec.toInt_zero]
    omega
  · rw [multB_toInt]
    omega

/-! ### MultA -/

/-- R88: MultA is the wrapped floor, because the wrap distributes over the sum. -/
theorem multA_eq_ofInt (x : Word) (c : Coef) :
    multA x c = BitVec.ofInt 32 (x.toInt * c.toInt / 2 ^ 15) := by
  have hsplit := product_split x c
  have hlow : asr (lowProduct x c) 15 = BitVec.ofInt 32 ((lowProduct x c).toInt / 2 ^ 15) := by
    rw [← asr_toInt, BitVec.ofInt_toInt]
  rw [multA, hlow, lsl_eq_ofInt, ← BitVec.ofInt_add, highProduct_toInt, lowProduct_toInt]
  congr 1
  omega

/-- R88: MultA wraps for one operand pair only. -/
theorem multA_toInt_ne_iff (x : Word) (c : Coef) :
    (multA x c).toInt ≠ x.toInt * c.toInt / 2 ^ 15 ↔ x = 0x80000000#32 ∧ c = 0x8000#16 := by
  have hz := product_bounds x c
  rw [multA_eq_ofInt, Ne, toInt_ofInt_eq_iff, ← word_toInt_eq_min_iff, ← coef_toInt_eq_min_iff,
    ← le_product_iff]
  omega

theorem multA_toInt_of_ne {x : Word} {c : Coef} (h : ¬(x = 0x80000000#32 ∧ c = 0x8000#16)) :
    (multA x c).toInt = x.toInt * c.toInt / 2 ^ 15 :=
  not_not.1 (mt (multA_toInt_ne_iff x c).1 h)

@[simp] theorem multA_zero_right (x : Word) : multA x 0#16 = 0#32 := by
  rw [multA_eq_ofInt, BitVec.toInt_zero, Int.mul_zero]
  decide

/-- R88: MultA by the coefficient -2^15 is the wrapped negation. -/
theorem multA_min (x : Word) : multA x 0x8000#16 = BitVec.ofInt 32 (-x.toInt) := by
  rw [multA_eq_ofInt, show (0x8000#16 : Coef).toInt = -32768 by decide]
  congr 1
  omega

/-- The words whose upper half is the lowest. -/
theorem hiHalf_toInt_eq_min_iff (x : Word) :
    (hiHalf x).toInt = -32768 ↔ 0x80000000 ≤ x.toNat ∧ x.toNat ≤ 0x8000FFFF := by
  have hx := word_toInt_cases x
  rw [hiHalf_toInt]
  omega

/-- R88: the doubled high product of MultA wraps where it is 2^31. -/
theorem lsl_highProduct_toInt_ne_iff (x : Word) (c : Coef) :
    (lsl (highProduct x c) 1).toInt ≠ 2 * (highProduct x c).toInt ↔
      c = 0x8000#16 ∧ 0x80000000 ≤ x.toNat ∧ x.toNat ≤ 0x8000FFFF := by
  have hx := word_bounds x
  have hhi := hiHalf_toInt x
  have hb := mul_coef_bounds c (p := (hiHalf x).toInt) (lo := -32768) (hi := 32767)
    (by omega) (by omega) (by omega) (by omega)
  have hmax := le_mul_coef_iff c (p := (hiHalf x).toInt) (m := 32768) (by omega) (by omega)
  rw [lsl_eq_ofInt, mul_comm 2, Ne, pow_one, toInt_ofInt_eq_iff, highProduct_toInt, ← hhi,
    ← hiHalf_toInt_eq_min_iff, ← coef_toInt_eq_min_iff, and_comm (a := c.toInt = _), ← hmax]
  omega

/-- R88: where the doubled high product wraps and the result fits, the sum comes back to it. -/
theorem multA_min_toInt {x : Word} (h1 : 0x80000001 ≤ x.toNat) (h2 : x.toNat ≤ 0x8000FFFF) :
    (multA x 0x8000#16).toInt = 2147483648 - (loHalf x).toInt := by
  have hx := word_toInt_cases x
  rw [multA_min, toInt_ofInt_of_range (by omega) (by omega), loHalf_toInt]
  omega

/-- R88: MultA by the coefficient 1 is the floor of x / 2^15, which fits. -/
theorem multA_one_toInt (x : Word) : (multA x 1#16).toInt = x.toInt / 32768 := by
  rw [multA_toInt_of_ne (by simp), show (1#16 : Coef).toInt = 1 by decide]
  omega

/-- Settles O5: the wrapped floor and its one wrapping pair, the wrapping intermediate, and the
special operands. -/
theorem multAIsWrappedFloor : Obligations.MultAIsWrappedFloor := by
  refine ⟨multA_eq_ofInt, fun x c => ?_, multA_toInt_ne_iff, by decide, by decide,
    lsl_highProduct_toInt_ne_iff, fun _ => multA_min_toInt, multA_zero_left, multA_zero_right,
    multA_one_toInt, multA_min, by decide, by decide, by decide, by decide⟩
  have hz := product_bounds x c
  omega

/-! ### The wide multiply -/

section
variable {w : Nat}

/-- R95: 48 bits hold the product, and so does every wider word. -/
theorem wideProduct_toInt (hw : 48 ≤ w) (x : Word) (c : Coef) :
    (x.signExtend w * c.signExtend w).toInt = x.toInt * c.toInt := by
  have hz := product_bounds x c
  have hpow : 2 ^ 48 ≤ 2 ^ w := Nat.pow_le_pow_right (by omega) hw
  rw [BitVec.toInt_mul, BitVec.toInt_signExtend_of_le (by omega),
    BitVec.toInt_signExtend_of_le (by omega)]
  apply Int.bmod_eq_of_le <;> omega

/-- R14, R95: cutting a wide word to 32 bits wraps its signed value. -/
theorem setWidth_eq_ofInt (hw : 32 ≤ w) (v : BitVec w) :
    v.setWidth 32 = BitVec.ofInt 32 v.toInt := by
  apply BitVec.eq_of_toInt_eq
  rw [BitVec.toInt_setWidth, BitVec.toInt_ofInt, BitVec.toInt_eq_toNat_bmod,
    Int.bmod_bmod_of_dvd (Nat.pow_dvd_pow 2 hw)]

/-- R95: the product shifted right is its floor. -/
theorem asr_wideProduct_toInt (hw : 48 ≤ w) (x : Word) (c : Coef) (k : Nat) :
    (asr (x.signExtend w * c.signExtend w) k).toInt = x.toInt * c.toInt / 2 ^ k := by
  rw [asr_toInt, wideProduct_toInt hw]

/-- R95: the product shifted right and cut is its wrapped floor. -/
theorem setWidth_asr_wideProduct (hw : 48 ≤ w) (x : Word) (c : Coef) (k : Nat) :
    (asr (x.signExtend w * c.signExtend w) k).setWidth 32 =
      BitVec.ofInt 32 (x.toInt * c.toInt / 2 ^ k) := by
  rw [setWidth_eq_ofInt (by omega), asr_wideProduct_toInt hw]

end

/-- Settles O7: the wide multiply gives the floors of which MultB and MultA are the closed forms. -/
theorem wideMultiplyGivesTheSameBits : Obligations.WideMultiplyGivesTheSameBits := by
  intro w hw x c
  have hfloor := asr_wideProduct_toInt hw x c
  have hcut := setWidth_asr_wideProduct hw x c
  refine ⟨wideProduct_toInt hw x c, ?_, ?_, ?_, ?_⟩
  · rw [hcut, ← multB_toInt, BitVec.ofInt_toInt]
  · rw [hcut, multA_eq_ofInt]
  · rw [hfloor, multB_toInt]
  · rw [hfloor]
    exact multA_toInt_ne_iff x c

end Sys2Proof.Machine
end

section
/-! SUPPORT. What INIT, RDS and WRS leave, one equation per branch of each command (R102 to R104),
the words with the opcode of INIT that are not INIT, and the statements of the state lifecycle settled
with them. -/

namespace Sys2Proof.Machine

open Sys2Proof.Spec

/-! ### What each command leaves -/

/-- R102: INIT has one branch. -/
theorem exec_init (s : State) : exec .init s = .next (endWith s (zeroS s.cfg) .ok 0#32) := rfl

section
variable {s : State} {k : Nat} {v : Word}

/-- R103: the word read is the response's data. -/
theorem exec_rds_of_readS (hk : k < 2 * s.cfg.n) (hv : readS s.S k = some v) :
    exec (.rds k) s = .next (endWith s s.S .ok v) := by
  rw [exec, execRds, if_neg hk.not_ge, hv]
  rfl

/-- R111: an index out of range is answered before any access. -/
theorem exec_rds_of_outOfRange (hk : indexOutOfRange s.cfg k) :
    exec (.rds k) s = .next (endWith s s.S .indexRange 0#32) :=
  if_pos hk

/-- R104: the register file written is the one left. -/
theorem exec_wrs_of_writeS {S' : List Word} (hk : k < 2 * s.cfg.n)
    (hw : writeS s.S k v = some S') : exec (.wrs k v) s = .next (endWith s S' .ok 0#32) := by
  rw [exec, execWrs, if_neg hk.not_ge, hw]
  rfl

/-- R111: an index out of range is answered and nothing is written. -/
theorem exec_wrs_of_outOfRange (hk : indexOutOfRange s.cfg k) :
    exec (.wrs k v) s = .next (endWith s s.S .indexRange 0#32) :=
  if_pos hk

/-! ### The same in the terms of the statements -/

/-- A command known to end with a register file and a response does so in the sense of `EndsWith`. -/
theorem endsWith_of_next {o : Host.Outcome State Fault Refusal} {S' : List Word} {st : Status}
    {r : RspWord} (h : o = .next (endWith s S' st v)) (hr : rspWord st v = r) :
    EndsWith o s S' r := by
  rw [h, ← hr]
  exact endsWith_respond s S' st v

/-- R103: on a register file of 2·N words a read in range finds its word and answers it. -/
theorem endsWith_rds_of_lt (hS : s.S.length = 2 * s.cfg.n) (hk : k < 2 * s.cfg.n) :
    ∃ u, s.S[k]? = some u ∧ EndsWith (exec (.rds k) s) s s.S (0x00#8 ++ u) := by
  have hread := readS_of_lt (hk.trans_eq hS.symm)
  exact ⟨_, readS_eq_some.1 hread, endsWith_of_next (exec_rds_of_readS hk hread) (rspWord_ok _)⟩

end

/-! ### The words with the opcode of INIT -/

/-- R52 (c): the opcode of INIT with any other bit set is reserved. -/
theorem decodeCommand_opInit_of_ne {w : CmdWord} (hop : opField w = 0x02#8)
    (hne : w ≠ 0x020000000000#48) : decodeCommand w = .error .initField := by
  refine (decodeCommand_of_opInit hop).trans (if_neg fun ⟨hidx, hhi, hlo⟩ => hne ?_)
  rw [← cmdWord_fields w, hop, hidx, hhi, hlo]
  decide

/-! ### The statements -/

/-- Settles O19: INIT leaves the zeroed register file, in which every read in range finds 0, and
every other word of its opcode is reserved. -/
theorem initZeroFillsTheState : Obligations.InitZeroFillsTheState := by
  intro s
  refine ⟨endsWith_of_next (exec_init s) rspWord_ok_zero, fun t ht => ?_,
    decodeCommand_initPattern, fun w hop hne => ?_⟩
  · obtain rfl := Host.Outcome.next.inj ((exec_init s).symm.trans ht)
    exact ⟨rfl, rfl, fun k hk =>
      endsWith_of_next (exec_rds_of_readS hk (readS_zeroS hk)) rspWord_ok_zero⟩
  · rw [acceptCommand_of_error (decodeCommand_opInit_of_ne hop hne)]
    exact endsWith_of_next (st := .illegalCmd) rfl rspWord_illegalCmd

/-- Settles O20, by the range check; with N = 128 it refuses no index of 8 bits. -/
theorem rdsReadsOneStateWord : Obligations.RdsReadsOneStateWord := by
  intro s k ⟨_, hS, _⟩
  refine ⟨endsWith_rds_of_lt hS,
    fun hk => endsWith_of_next (exec_rds_of_outOfRange hk) rspWord_indexRange,
    fun hn hk => endsWith_rds_of_lt hS (by omega), fun hk => ?_⟩
  rw [decodeCommand_rdsPattern, BitVec.toNat_ofNat, Nat.mod_eq_of_lt (by omega)]

/-- Settles O21, by the range check: in range the write succeeds, is read back, and leaves every
other word. -/
theorem wrsWritesOneStateWord : Obligations.WrsWritesOneStateWord := by
  intro s k v ⟨_, hS, _⟩
  refine ⟨fun hk => ?_,
    fun hk => endsWith_of_next (exec_wrs_of_outOfRange hk) rspWord_indexRange, fun hk => ?_⟩
  · have hw := writeS_of_lt (v := v) (hk.trans_eq hS.symm)
    exact ⟨_, endsWith_of_next (exec_wrs_of_writeS hk hw) rspWord_ok_zero, writeS_length hw,
      readS_eq_some.1 (readS_writeS_same hw), fun _ => readS_writeS_other hw⟩
  · rw [decodeCommand_wrsPattern, BitVec.toNat_ofNat, Nat.mod_eq_of_lt (by omega)]

end Sys2Proof.Machine
end

section
/-! SUPPORT. The round trips between an instruction and its encoding (R50, R54, R55), the
assembler's `or` of shifted operands as a command word (R56), and the statements of the encoding
settled with them. -/

namespace Sys2Proof

/-! ### Decode after encode, and encode after decode -/

theorem decodeCommand_cmdWord_rds (k : BitVec 8) :
    decodeCommand (cmdWord 0x03#8 k 0#16 0#16) = .ok (.rds k.toNat) :=
  (congrArg decodeCommand (append_data_eq_cmdWord 0x03#8 k 0#32)).symm.trans
    (decodeCommand_rdsPattern k)

theorem decodeCommand_cmdWord_wrs (k : BitVec 8) (v : Word) :
    decodeCommand (cmdWord 0x04#8 k (v.extractLsb' 16 16) (v.extractLsb' 0 16)) =
      .ok (.wrs k.toNat v) :=
  (congrArg decodeCommand (append_data_eq_cmdWord 0x04#8 k v)).symm.trans
    (decodeCommand_wrsPattern k v)

/-- R50: an index in the range of the `idx` field is kept by it. -/
theorem toNat_idx_of_fits {k : Nat} (hk : indexFits k) : (BitVec.ofNat 8 k).toNat = k :=
  (BitVec.toNat_ofNat k 8).trans (Nat.mod_eq_of_lt hk)

/-- R54: what a command word decodes to is well formed and encodes to that word. -/
theorem encode_of_decodeCommand {w : CmdWord} {i : Instr} (h : decodeCommand w = .ok i) :
    WellFormed i = true ∧ encode i = .command w := by
  have hidx : BitVec.ofNat 8 (idxField w).toNat = idxField w :=
    (BitVec.ofNat_toNat 8 _).trans (BitVec.setWidth_eq _)
  obtain ⟨rfl, hop, hk, hhi⟩ | ⟨rfl, hop, hk, hhi, hlo⟩ | ⟨rfl, hop, hhi, hlo⟩ | ⟨rfl, hop⟩ :=
    decodeCommand_ok h
  · refine ⟨rfl, congrArg Encoded.command ?_⟩
    rw [← hop, ← hk, ← hhi, cmdWord_fields]
  · refine ⟨rfl, congrArg Encoded.command ?_⟩
    conv_rhs => rw [← cmdWord_fields w, hop, hk, hhi, hlo]
  · refine ⟨decide_eq_true (idxField w).isLt, congrArg Encoded.command ?_⟩
    conv_rhs => rw [← cmdWord_fields w, hop, hhi, hlo]
    rw [hidx]
  · refine ⟨decide_eq_true (idxField w).isLt, congrArg Encoded.command ?_⟩
    conv_rhs => rw [← cmdWord_fields w, hop]
    rw [hidx, show (dataHi w ++ dataLo w).extractLsb' 16 16 = dataHi w from
      BitVec.extractLsb'_append_eq_left,
      show (dataHi w ++ dataLo w).extractLsb' 0 16 = dataLo w from
      BitVec.extractLsb'_append_eq_right]

/-- R55: the select bit is that of the operation it decodes to. -/
theorem encode_decodeMacOp (op : BitVec 1) (a x : Word) (c : Coef) :
    encode (decodeMacOp op a x c) = .macOp op a x c := by
  obtain rfl | rfl := BitVec.eq_zero_or_eq_one op <;> rfl

/-- Settles O24, by the constructor: each command is its pattern of R51 with its own operands. -/
theorem decodeEncodeRoundTrip : Obligations.DecodeEncodeRoundTrip := by
  intro i hi
  cases i with
  | filt s => exact decodeCommand_filtPattern s
  | init => exact decodeCommand_initPattern
  | rds k =>
    refine (decodeCommand_cmdWord_rds _).trans ?_
    rw [toNat_idx_of_fits (of_decide_eq_true hi)]
  | wrs k v =>
    refine (decodeCommand_cmdWord_wrs _ v).trans ?_
    rw [toNat_idx_of_fits (of_decide_eq_true hi)]
  | macb a x c => rfl
  | maca a x c => rfl

/-- Settles O25: a command word is its fields, which the four lines of the decoder fix. -/
theorem decodedWordIsItsEncoding : Obligations.DecodedWordIsItsEncoding := by
  intro e i h
  cases e with
  | command w => exact encode_of_decodeCommand h
  | macOp op a x c =>
    obtain rfl : decodeMacOp op a x c = i := Except.ok.inj h
    refine ⟨?_, encode_decodeMacOp op a x c⟩
    obtain rfl | rfl := BitVec.eq_zero_or_eq_one op <;> rfl

/-! ### The assembler -/

/-- R56: opcode, index and data, shifted into place and joined by `or`, are a command word. -/
theorem or_operands_eq_append (op : BitVec 8) {k : Nat} (hk : indexFits k) (v : Word) :
    op.setWidth 48 <<< 40 ||| BitVec.ofNat 48 k <<< 32 ||| v.setWidth 48 =
      op ++ BitVec.ofNat 8 k ++ v := by
  have hidx : BitVec.ofNat 48 k = (BitVec.ofNat 8 k).setWidth 48 := by
    rw [← BitVec.ofNat_toNat, toNat_idx_of_fits hk]
  rw [hidx, ← BitVec.setWidth_eq (op ++ BitVec.ofNat 8 k ++ v)]
  exact (BitVec.setWidth_append_append_eq_shiftLeft_setWidth_or (b := op) (b' := BitVec.ofNat 8 k)
    (b'' := v) (w''' := 48)).symm

theorem decodeCommand_assembled_filt (s : Sample) :
    decodeCommand (0x010000000000#48 ||| s.setWidth 48) = .ok (.filt s) := by
  have hword : 0x010000000000#48 ||| s.setWidth 48 = 0x01#8 ++ 0#24 ++ s :=
    (BitVec.setWidth_append_append_eq_shiftLeft_setWidth_or (b := 0x01#8) (b' := 0#24) (b'' := s)
      (w''' := 48)).symm
  rw [hword]
  exact decodeCommand_filtPattern s

theorem decodeCommand_assembled_rds {k : Nat} (hk : indexFits k) :
    decodeCommand (0x030000000000#48 ||| BitVec.ofNat 48 k <<< 32) = .ok (.rds k) := by
  have hword : 0x030000000000#48 ||| BitVec.ofNat 48 k <<< 32 =
      0x03#8 ++ BitVec.ofNat 8 k ++ 0#32 :=
    BitVec.or_zero.symm.trans (or_operands_eq_append 0x03#8 hk 0#32)
  rw [hword, decodeCommand_rdsPattern, toNat_idx_of_fits hk]

theorem decodeCommand_assembled_wrs {k : Nat} (hk : indexFits k) (v : Word) :
    decodeCommand (0x040000000000#48 ||| BitVec.ofNat 48 k <<< 32 ||| v.setWidth 48) =
      .ok (.wrs k v) := by
  have hword : 0x040000000000#48 ||| BitVec.ofNat 48 k <<< 32 ||| v.setWidth 48 =
      0x04#8 ++ BitVec.ofNat 8 k ++ v := or_operands_eq_append 0x04#8 hk v
  rw [hword, decodeCommand_wrsPattern, toNat_idx_of_fits hk]

/-- R56: the word of an assembled command line decodes to the command the line stands for. -/
theorem decodeCommand_of_assemble {l : AsmLine} {w : CmdWord} {i : Instr}
    (hl : ∀ v, l ≠ .word v) (hw : assemble l = some w) (hi : l.instr = some i) :
    decodeCommand w = .ok i := by
  cases l with
  | filtDec s =>
    obtain ⟨-, hw⟩ := Option.ite_none_right_eq_some.1 hw
    cases hw
    cases hi
    exact decodeCommand_assembled_filt _
  | filtHex s =>
    cases hw
    cases hi
    exact decodeCommand_assembled_filt s
  | init =>
    cases hw
    cases hi
    exact decodeCommand_initPattern
  | rds k =>
    obtain ⟨hk, hw⟩ := Option.ite_none_right_eq_some.1 hw
    cases hw
    cases hi
    exact decodeCommand_assembled_rds hk
  | wrsDec k v =>
    obtain ⟨⟨hk, -⟩, hw⟩ := Option.ite_none_right_eq_some.1 hw
    cases hw
    cases hi
    exact decodeCommand_assembled_wrs hk _
  | wrsHex k v =>
    obtain ⟨hk, hw⟩ := Option.ite_none_right_eq_some.1 hw
    cases hw
    cases hi
    exact decodeCommand_assembled_wrs hk v
  | word v => exact absurd rfl (hl v)

/-- Settles O30: each assembled word is its command's pattern of R51, and each line that can fail
does so at its range check. -/
theorem assembledLinesDecodeToTheirCommand : Obligations.AssembledLinesDecodeToTheirCommand := by
  refine ⟨fun l w i => decodeCommand_of_assemble, fun s => ?_, fun k => ?_, fun k v => ?_,
    fun k v => ?_, fun _ => rfl, rfl, fun _ => rfl⟩
  · rw [assemble, Option.isSome_ite]
  · rw [assemble, Option.isSome_ite, indexFits, Nat.lt_succ_iff]
  · rw [assemble, Option.isSome_ite, indexFits, Nat.lt_succ_iff]
  · rw [assemble, Option.isSome_ite, indexFits, Nat.lt_succ_iff]

end Sys2Proof

namespace Sys2Proof.Machine

/-- Settles O50: each text is run through the assembler, each response through its writer. -/
theorem assemblyTextGivesTheWorkedEncodings : Obligations.AssemblyTextGivesTheWorkedEncodings := by
  unfold Obligations.AssemblyTextGivesTheWorkedEncodings
  decide

end Sys2Proof.Machine
end

section
/-! SUPPORT. The integer readings and the halves (R15, R16, R84), the ranges of the partial products
(R89), the rounding of the primitives (R93), the two operations of the unit in closed form (R90,
R91), and the statements of the MAC unit settled with them. -/

namespace Sys2Proof.Machine

open Sys2Proof.Spec

/-! ### Readings and halves -/

/-- Settles O1: the shifts and extensions are the laws of the integer readings. -/
theorem shiftsAndExtensionsReadAsIntegers : Obligations.ShiftsAndExtensionsReadAsIntegers :=
  ⟨fun _ v k _ => asr_toInt v k, fun _ v k _ => lsl_eq_ofInt v k, sext32_toInt,
    fun _ => BitVec.toNat_setWidth_of_le (by decide), by decide⟩

/-- R84: the upper half is in the range of a sample, so its low 16 bits hold its value. -/
theorem hiHalf_toInt_eq_extract (x : Word) :
    (hiHalf x).toInt = (x.extractLsb' 16 16).toInt := by
  obtain ⟨hlo, hhi⟩ := asr16_bounds x
  rw [← outputSample_eq_extract]
  exact (toInt_low16_of_range hlo hhi).symm

/-- Settles O2: the halves are the quotient and the remainder by 2^16. -/
theorem halvesReconstructTheWord : Obligations.HalvesReconstructTheWord := by
  intro x
  have hhi := hiHalf_toInt x
  have hlo := loHalf_toInt x
  exact ⟨hiHalf_toInt_eq_extract x, zext32_toInt _, asr16_bounds x, by omega, by omega⟩

/-! ### The intermediates of MultB and MultA -/

section
variable (x : Word) (c : Coef)

theorem highProduct_bounds :
    -1073709056 ≤ (highProduct x c).toInt ∧ (highProduct x c).toInt ≤ 1073741824 := by
  have hx := word_bounds x
  have hb := mul_coef_bounds c (p := x.toInt / 65536) (lo := -32768) (hi := 32767)
    (by omega) (by omega) (by omega) (by omega)
  rw [highProduct_toInt]
  omega

theorem lowProduct_bounds :
    -2147450880 ≤ (lowProduct x c).toInt ∧ (lowProduct x c).toInt ≤ 2147385345 := by
  have hb := mul_coef_bounds c (p := x.toInt % 65536) (lo := 0) (hi := 65535)
    (by omega) (by omega) (by omega) (by omega)
  rw [lowProduct_toInt]
  omega

/-- R88: the sum of MultA before it wraps is the floor of the exact product. -/
theorem sumA_eq_floor :
    2 * (highProduct x c).toInt + (asr (lowProduct x c) 15).toInt = x.toInt * c.toInt / 2 ^ 15 := by
  have hsplit := product_split x c
  rw [asr_toInt, highProduct_toInt, lowProduct_toInt]
  omega

theorem lsl_highProduct_toInt_ne_iff_halves :
    (lsl (highProduct x c) 1).toInt ≠ 2 * (highProduct x c).toInt ↔
      (hiHalf x).toInt = -32768 ∧ c.toInt = -32768 := by
  rw [lsl_highProduct_toInt_ne_iff, hiHalf_toInt_eq_min_iff, coef_toInt_eq_min_iff, and_comm]

end

/-- Settles O3: the two partial products have the bounds of their factors; the sum of MultB is then
in range, and the sum of MultA is the floor of the product, whose one extreme pair is known. -/
theorem partialProductsFitIn32Bits : Obligations.PartialProductsFitIn32Bits := by
  intro x c
  have hhigh := highProduct_bounds x c
  have hlow := lowProduct_bounds x c
  have hasr15 := asr_toInt (lowProduct x c) 15
  have hasr16 := asr_toInt (lowProduct x c) 16
  have hsumB : (highProduct x c + asr (lowProduct x c) 16).toInt =
      (highProduct x c).toInt + (asr (lowProduct x c) 16).toInt :=
    add_toInt_of_range (by omega) (by omega)
  have hsumA := sumA_eq_floor x c
  have hprod := product_bounds x c
  refine ⟨?_, ?_, hhigh, hlow, by omega, hsumB, by omega, by omega, by omega,
    lsl_highProduct_toInt_ne_iff_halves x c, fun ⟨hhi, hc⟩ => ?_, by omega, ?_⟩
  · rw [highProduct_toInt, hiHalf_toInt]
  · rw [lowProduct_toInt, loHalf_toInt]
  · rw [lsl_eq_ofInt, highProduct_toInt, ← hiHalf_toInt, hhi, hc]
    decide
  · rw [hsumA, ← word_toInt_eq_min_iff, ← coef_toInt_eq_min_iff, ← le_product_iff]
    omega

/-! ### Rounding -/

/-- Only the least word has no negation in range. -/
theorem neg_toInt_of_ne_min {x : Word} (hx : x ≠ 0x80000000#32) : (-x).toInt = -x.toInt :=
  BitVec.toInt_neg_of_ne_intMin hx

/-- The pair at which MultA wraps has a positive product. -/
theorem not_wrapPair_of_product_neg {x : Word} {c : Coef} (h : x.toInt * c.toInt < 0) :
    ¬(x = 0x80000000#32 ∧ c = 0x8000#16) := by
  rintro ⟨rfl, rfl⟩
  exact absurd h (by decide)

/-- Settles O6: away from MultA's wrapping pair both results are floors of the product, by 2^21 and
by 2^15, and the floor of a negation is that of R93. -/
theorem primitivesRoundTowardMinusInfinity : Obligations.PrimitivesRoundTowardMinusInfinity := by
  refine ⟨fun x c hpos => ?_, fun x c hneg => ?_, fun x c hne hpos => ?_, fun x c hneg => ?_,
    fun x c hx => ?_, fun x c hx => ?_⟩
  · rw [multB_toInt]
    omega
  · rw [multB_toInt]
    omega
  · rw [multA_toInt_of_ne hne]
    omega
  · rw [multA_toInt_of_ne (not_wrapPair_of_product_neg hneg)]
    omega
  · rw [multB_toInt, multB_toInt, neg_toInt_of_ne_min hx, neg_mul]
    split <;> omega
  · have hnx : -x ≠ 0x80000000#32 := mt BitVec.neg_eq_intMin.1 hx
    rw [multA_toInt_of_ne (mt And.left hnx), multA_toInt_of_ne (mt And.left hx),
      neg_toInt_of_ne_min hx, neg_mul]
    split <;> omega

/-! ### The two operations of the unit -/

/-- R90: MultB is its floor, wrapped or not. -/
theorem ofInt_floorB (x : Word) (c : Coef) : BitVec.ofInt 32 (floorB x c) = multB x c := by
  rw [floorB, ← multB_toInt, BitVec.ofInt_toInt]

/-- R91: the wrap of MultA and that of a difference with its floor are one. -/
theorem ofInt_sub_floorA (z : Int) (x : Word) (c : Coef) :
    BitVec.ofInt 32 (z - floorA x c) = BitVec.ofInt 32 z - multA x c := by
  rw [multA_eq_ofInt, floorA, sub_eq_add_neg, BitVec.ofInt_add, BitVec.ofInt_neg,
    BitVec.sub_eq_add_neg]

section
variable (a x : Word) (c : Coef) (s : State)

theorem exec_macb : exec (.macb a x c) s = .next { s with macR := a + multB x c } := rfl

theorem exec_maca : exec (.maca a x c) s = .next { s with macR := a - multA x c } := rfl

/-- Taking 2^31 away flips the top bit and nothing else. -/
theorem sub_min_eq_xor : a - 0x80000000#32 = a ^^^ 0x80000000#32 := by
  have hlow := Nat.xor_mod_two_pow (a := a.toNat) (b := 2 ^ 31) (n := 31)
  have hhigh := Nat.xor_div_two_pow (a := a.toNat) (b := 2 ^ 31) (n := 31)
  rw [Nat.mod_self, Nat.xor_zero] at hlow
  rw [Nat.div_self (by decide)] at hhigh
  apply BitVec.eq_of_toNat_eq
  rw [BitVec.toNat_sub, BitVec.toNat_xor, show (0x80000000#32).toNat = 2 ^ 31 from rfl]
  obtain htop | htop : a.toNat / 2 ^ 31 = 0 ∨ a.toNat / 2 ^ 31 = 1 := by omega
  · rw [htop, Nat.zero_xor] at hhigh
    omega
  · rw [htop, Nat.xor_self] at hhigh
    omega

end

/-- Settles O8: the sum in closed form, and the worked values. -/
theorem macbAddsTheFlooredProduct : Obligations.MacbAddsTheFlooredProduct := by
  refine ⟨fun a x c s => ?_, fun s => ?_, fun x c s => ?_, fun s => ?_⟩
  · rw [exec_macb, BitVec.ofInt_add, BitVec.ofInt_toInt, ofInt_floorB]
  · rw [exec_macb, show multB 0x00200000#32 1#16 = 1#32 by decide]
    rfl
  · rw [exec_macb, BitVec.zero_add]
  · rw [exec_macb, show multB 0x3FFF8000#32 18287#16 = 9362658#32 by decide]
    rfl

/-- Settles O9: the difference in closed form, and the worked values. -/
theorem macaSubtractsTheFlooredProduct : Obligations.MacaSubtractsTheFlooredProduct := by
  refine ⟨fun a x c s => ?_, fun s => ?_, fun a s => ?_, fun s => ?_⟩
  · rw [exec_maca, ofInt_sub_floorA, BitVec.ofInt_toInt]
  · rw [exec_maca, show multA 32768#32 1#16 = 1#32 by decide]
    rfl
  · rw [exec_maca, show multA 0x80000000#32 0x8000#16 = 0x80000000#32 by decide, sub_min_eq_xor]
  · rw [exec_maca, show multA 9362658#32 (BitVec.ofInt 16 (-32197)) = 4285767787#32 by decide]
    rfl

end Sys2Proof.Machine
end

section
/-! SUPPORT. The recurrence of a section over the integers (R76), its five MAC operations (R77),
what each section of a cascade does to its own words (R64), FILT 0 on REF (V38), and the statements
of the section pipeline and of FILT settled with them. -/

namespace Sys2Proof.Machine

open Sys2Proof.Spec

/-! ### The section step in closed form -/

section
variable (d : SectionReads) (acc : Word)

theorem accOut_eq : d.accOut acc = multB acc d.b0 + d.s0 := by
  rw [SectionReads.accOut, BitVec.ofInt_add, ofInt_floorB, BitVec.ofInt_toInt]

theorem s0New_eq : d.s0New acc = (d.s1 + multB acc d.b1) - multA (d.accOut acc) d.a1 := by
  rw [SectionReads.s0New, ofInt_sub_floorA, BitVec.ofInt_add, ofInt_floorB, BitVec.ofInt_toInt]

theorem s1New_eq : d.s1New acc = multB acc d.b2 - multA (d.accOut acc) d.a2 := by
  rw [SectionReads.s1New, ofInt_sub_floorA, ofInt_floorB]

end

/-- Settles O11: each of the three results is the wrap of one integer expression, because the wrap
distributes over sums and differences. -/
theorem sectionStepOverTheIntegers : Obligations.SectionStepOverTheIntegers := by
  intro c S i acc d hd
  rw [sectionStep_of_at hd, s0New_eq, s1New_eq, accOut_eq]

/-- Settles O12: the five operations compute the step's three values, the third and the fifth from
the output of the first. -/
theorem fiveMacOperationsMakeASectionStep : Obligations.FiveMacOperationsMakeASectionStep := by
  intro s i acc d hd
  refine ⟨_, _, _, _, _, exec_macb .., exec_macb .., exec_maca .., exec_macb .., exec_maca ..,
    ?_, rfl⟩
  rw [sectionStep_of_at hd, BitVec.add_comm (multB acc d.b0), BitVec.zero_add]

/-! ### The sections of a cascade -/

/-- The accumulator after the first `m` sections; 0 where they do not complete. -/
def accAfter (c : Config) (S : List Word) (acc : Word) (m : Nat) : Word :=
  ((cascade c S acc m).map Prod.fst).getD 0#32

theorem accAfter_of_cascade {c : Config} {S S' : List Word} {acc acc' : Word} {m : Nat}
    (h : cascade c S acc m = some (acc', S')) : accAfter c S acc m = acc' := by
  rw [accAfter, h]
  rfl

/-- A section whose state words two register files share reads the same from both. -/
theorem sectionReads_at_congr {c : Config} {S T : List Word} {i : Nat} {d : SectionReads}
    (hd : d.At c S i) (h : ∀ k, 2 * i ≤ k → S[k]? = T[k]?) : d.At c T i := by
  obtain ⟨h0, h1, hcoef⟩ := hd
  exact ⟨(h _ le_rfl).symm.trans h0, (h _ (Nat.le_succ _)).symm.trans h1, hcoef⟩

/-- A section step that completes read the words of its section. -/
theorem exists_at_of_sectionStep {c : Config} {S : List Word} {i : Nat} {acc : Word}
    {r : Word × List Word} (h : sectionStep c S i acc = some r) :
    ∃ d : SectionReads, d.At c S i := by
  obtain ⟨s0, s1, b0, b1, b2, a1, a2, hwords⟩ := sectionStep_some h
  exact ⟨⟨s0, s1, b0, b1, b2, a1, a2⟩, hwords⟩

/-- R73, R76: a section step leaves the recurrence's words in its own section. -/
theorem sectionStep_own {c : Config} {S S' : List Word} {i : Nat} {acc acc' : Word}
    {d : SectionReads} (hd : d.At c S i) (h : sectionStep c S i acc = some (acc', S')) :
    acc' = d.accOut acc ∧ S'[2 * i]? = some (d.s0New acc) ∧
      S'[2 * i + 1]? = some (d.s1New acc) := by
  rw [sectionStepOverTheIntegers c S i acc d hd] at h
  cases h
  obtain ⟨-, h1, -⟩ := hd
  exact ⟨rfl, getElem?_set_pair (List.getElem?_eq_some_iff.1 h1).1 _ _⟩

/-- R64: each section of a cascade applies the recurrence to the words it finds, which are those of
the register file the cascade began with; later sections leave its two new words alone. -/
theorem cascade_sections {c : Config} {S : List Word} {acc : Word} (m : Nat) {acc' : Word}
    {S' : List Word} (h : cascade c S acc m = some (acc', S')) (i : Nat) (hi : i < m) :
    ∃ d : SectionReads, d.At c S i ∧
      accAfter c S acc (i + 1) = d.accOut (accAfter c S acc i) ∧
      S'[2 * i]? = some (d.s0New (accAfter c S acc i)) ∧
      S'[2 * i + 1]? = some (d.s1New (accAfter c S acc i)) := by
  induction m generalizing acc' S' with
  | zero => omega
  | succ m ih =>
    obtain ⟨accM, SM, hm, hs⟩ := cascade_succ_some.1 h
    obtain hlt | rfl := Nat.lt_succ_iff_lt_or_eq.1 hi
    · obtain ⟨d, hd, hacc, h0, h1⟩ := ih hm hlt
      refine ⟨d, hd, hacc, ?_, ?_⟩
      · rw [sectionStep_other hs (by omega) (by omega), h0]
      · rw [sectionStep_other hs (by omega) (by omega), h1]
    · obtain ⟨d, hd⟩ := exists_at_of_sectionStep hs
      rw [accAfter_of_cascade h, accAfter_of_cascade hm]
      exact ⟨d, sectionReads_at_congr hd fun k => cascade_later i hm, sectionStep_own hd hs⟩

/-- R62 as the accumulator a sample enters with. -/
theorem widen_eq_ofInt (x : Sample) : widen x = BitVec.ofInt 32 (x.toInt * 32768) := by
  rw [← widen_toInt, BitVec.ofInt_toInt]

/-- R62: the accumulator before section 0 is the widened sample. -/
theorem accAfter_zero (c : Config) (S : List Word) (x : Sample) :
    accAfter c S (widen x) 0 = BitVec.ofInt 32 (x.toInt * 32768) :=
  (accAfter_of_cascade (cascade_zero ..)).trans (widen_eq_ofInt x)

/-- R69: the response of a sample in terms of the last accumulator. -/
theorem rspWord_outputSample (acc : Word) :
    rspWord .ok (sext32 (outputSample acc)) =
      0x00#8 ++ (acc.extractLsb' 16 16).signExtend 32 := by
  rw [outputSample_eq_extract, rspWord_ok, sext32]

/-- R61, R69: what FILT ends with when its cascade completes. -/
theorem endsWith_filt_of_cascade {s : State} {x : Sample} {accN : Word} {S' : List Word}
    (hN : cascade s.cfg s.S (widen x) s.cfg.n = some (accN, S')) :
    EndsWith (exec (.filt x) s) s S'
      (0x00#8 ++ ((accAfter s.cfg s.S (widen x) s.cfg.n).extractLsb' 16 16).signExtend 32) := by
  rw [accAfter_of_cascade hN]
  exact endsWith_of_next (exec_filt_of_filterSample (filterSample_some.2 ⟨accN, hN, rfl⟩))
    (rspWord_outputSample accN)

/-- Settles O15: in a well-formed state the cascade completes, its sections follow the recurrence,
and its last accumulator gives the response. -/
theorem filtRunsTheCascade : Obligations.FiltRunsTheCascade := by
  intro s x ⟨hc, hS, _⟩
  obtain ⟨⟨accN, S'⟩, hN⟩ := cascade_completes hc hS (widen x) s.cfg.n le_rfl
  exact ⟨accAfter s.cfg s.S (widen x), S', accAfter_zero s.cfg s.S x, cascade_length _ hN,
    cascade_sections _ hN, endsWith_filt_of_cascade hN⟩

/-! ### FILT 0 on REF -/

/-- On REF accumulator 0 brings S[0] out and feeds it back with the coefficient -32197. -/
theorem sectionStep_ref_zero (v : Word) :
    sectionStep Config.ref [v, 0#32] 0 0#32 =
      some (v, [-multA v (BitVec.ofInt 16 (-32197)), 0#32]) := by
  have h := sectionStep_eq (c := Config.ref) (S := [v, 0#32]) (i := 0) (acc := 0#32) (s0 := v)
    (s1 := 0#32) (b0 := 18287#16) (b1 := 18287#16) (b2 := 0#16) (a1 := BitVec.ofInt 16 (-32197))
    (a2 := 0#16) rfl rfl rfl rfl rfl rfl rfl
  rw [multB_zero_left, multA_zero_right, BitVec.zero_add, BitVec.zero_add, BitVec.sub_zero,
    BitVec.zero_sub] at h
  exact h

/-- On REF the one section is the whole filter. -/
theorem filterSample_ref_zero (v : Word) :
    filterSample Config.ref [v, 0#32] 0#16 =
      some (outputSample v, [-multA v (BitVec.ofInt 16 (-32197)), 0#32]) := by
  refine filterSample_some.2 ⟨v, cascade_succ_some.2 ⟨_, _, cascade_zero .., ?_⟩, rfl⟩
  rw [show widen 0#16 = 0#32 by decide, sectionStep_ref_zero]

theorem toInt_ofNat_small {v : Nat} (hv : v ≤ 57) : (BitVec.ofNat 32 v).toInt = v := by
  have h := word_toInt_cases (BitVec.ofNat 32 v)
  rw [BitVec.toNat_ofNat] at h
  omega

/-- A small positive accumulator has output sample 0. -/
theorem outputSample_small {v : Nat} (hv : v ≤ 57) : outputSample (BitVec.ofNat 32 v) = 0#16 := by
  obtain ⟨hlo, hhi⟩ := asr16_bounds (BitVec.ofNat 32 v)
  apply BitVec.eq_of_toInt_eq
  rw [outputSample, toInt_low16_of_range hlo hhi, asr_toInt, toInt_ofNat_small hv,
    BitVec.toInt_zero]
  omega

/-- Feeding a small positive word back with -32197 loses less than one unit, which the floor
restores. -/
theorem multA_ref_small {v : Nat} (hv : v ≤ 57) :
    multA (BitVec.ofNat 32 v) (BitVec.ofInt 16 (-32197)) = -BitVec.ofNat 32 v := by
  have hcoef : (BitVec.ofInt 16 (-32197)).toInt = -32197 := by decide
  have hfloor : (v : Int) * -32197 / 2 ^ 15 = -v := by omega
  rw [multA_eq_ofInt, hcoef, toInt_ofNat_small hv, hfloor, BitVec.ofInt_neg, BitVec.ofInt_natCast]

/-- Settles O17: FILT 0 on REF feeds S[0] back, unchanged up to 57 and one less at 58. -/
theorem refSmallPositiveStatesNeverDecay : Obligations.RefSmallPositiveStatesNeverDecay := by
  refine ⟨fun s v hcfg h1 h57 hS => endsWith_filt_of_fixed ?_, fun s hcfg hS => ?_⟩
  · rw [hcfg, hS, filterSample_ref_zero, multA_ref_small h57, BitVec.neg_neg,
      outputSample_small h57]
  · have hfilt : filterSample s.cfg s.S 0#16 = some (0#16, [57#32, 0#32]) := by
      rw [hcfg, hS, filterSample_ref_zero]
      decide
    exact endsWith_of_next (exec_filt_of_filterSample hfilt) rspWord_ok_zero

end Sys2Proof.Machine
end

section
/-! SUPPORT. What a command word leaves and answers as a function of the configuration and S (R70,
R118), the order of its status (R114), writes read back and a register file written back (R43,
R105), and the statements about sequences of commands settled with them. -/

namespace Sys2Proof.Machine

open Sys2Proof.Spec

/-! ### The effect of a command word -/

/-- The register file, status and data an instruction of the host port ends with; none where it
stops, and for the MAC operations, which are no commands (R55). -/
def commandEffect (c : Config) (S : List Word) : Instr → Option (List Word × Status × Word)
  | .filt x => (filterSample c S x).map fun (out, S') => (S', .ok, sext32 out)
  | .init => some (zeroS c, .ok, 0#32)
  | .rds k =>
    if indexOutOfRange c k then some (S, .indexRange, 0#32)
    else (readS S k).map fun v => (S, .ok, v)
  | .wrs k v =>
    if indexOutOfRange c k then some (S, .indexRange, 0#32)
    else (writeS S k v).map fun S' => (S', .ok, 0#32)
  | .macb _ _ _ => none
  | .maca _ _ _ => none

/-- The same of a command word, which is answered ILLEGAL_CMD where it is reserved (R110). -/
def wordEffect (c : Config) (S : List Word) (w : CmdWord) : Option (List Word × Status × Word) :=
  match decodeCommand w with
  | .ok i => commandEffect c S i
  | .error _ => some (S, .illegalCmd, 0#32)

theorem wordEffect_of_ok {w : CmdWord} {i : Instr} (h : decodeCommand w = .ok i) (c : Config)
    (S : List Word) : wordEffect c S w = commandEffect c S i := by
  rw [wordEffect, h]

theorem wordEffect_of_error {w : CmdWord} {r : Reserved} (h : decodeCommand w = .error r)
    (c : Config) (S : List Word) : wordEffect c S w = some (S, .illegalCmd, 0#32) := by
  rw [wordEffect, h]

/-- An effect as the outcome of a command from `s`. -/
def endOf (s : State) :
    Option (List Word × Status × Word) → Host.Outcome State Fault Refusal
  | some (S', st, d) => .next (endWith s S' st d)
  | none => .fault .outOfBounds

theorem endOf_eq_next {s t : State} {e : Option (List Word × Status × Word)} :
    endOf s e = .next t ↔ ∃ S' st d, e = some (S', st, d) ∧ t = endWith s S' st d := by
  constructor
  · intro h
    obtain _ | ⟨S', st, d⟩ := e
    · cases h
    · cases h
      exact ⟨S', st, d, rfl, rfl⟩
  · rintro ⟨S', st, d, rfl, rfl⟩
    rfl

/-- The meaning of an instruction that a command word decodes to is its effect. -/
theorem exec_eq_endOf {w : CmdWord} {i : Instr} (h : decodeCommand w = .ok i) (s : State) :
    exec i s = endOf s (commandEffect s.cfg s.S i) := by
  obtain ⟨rfl, -⟩ | ⟨rfl, -⟩ | ⟨rfl, -⟩ | ⟨rfl, -⟩ := decodeCommand_ok h
  · rw [exec, execFilt, commandEffect]
    cases filterSample s.cfg s.S (dataLo w) <;> rfl
  · rfl
  · rw [exec, execRds, commandEffect]
    split
    · rfl
    · cases readS s.S (idxField w).toNat <;> rfl
  · rw [exec, execWrs, commandEffect]
    split
    · rfl
    · cases writeS s.S (idxField w).toNat (dataHi w ++ dataLo w) <;> rfl

theorem acceptCommand_eq_endOf (w : CmdWord) (s : State) :
    acceptCommand w s = endOf s (wordEffect s.cfg s.S w) := by
  cases hd : decodeCommand w with
  | ok i => rw [wordEffect_of_ok hd, ← exec_eq_endOf hd, acceptCommand, hd]
  | error r =>
    rw [wordEffect_of_error hd, acceptCommand_of_error hd]
    rfl

/-- R70: a command word that completes ends with its effect on the configuration and S. -/
theorem acceptCommand_eq_next {w : CmdWord} {s t : State} :
    acceptCommand w s = .next t ↔
      ∃ S' st d, wordEffect s.cfg s.S w = some (S', st, d) ∧ t = endWith s S' st d := by
  rw [acceptCommand_eq_endOf, endOf_eq_next]

/-- Settles O18: both states have the same effect. -/
theorem commandsDependOnlyOnConfigAndS : Obligations.CommandsDependOnlyOnConfigAndS := by
  intro w s t s' hcfg hS h
  obtain ⟨S', st, d, heff, rfl⟩ := acceptCommand_eq_next.1 h
  rw [← hcfg, ← hS] at heff
  exact ⟨_, acceptCommand_eq_next.2 ⟨S', st, d, heff, rfl⟩, rfl, rfl⟩

/-- Settles O42: the response of every command is the one of `respond`. -/
theorem acceptedCommandTakesTheNextLatency : Obligations.AcceptedCommandTakesTheNextLatency := by
  intro s t w h
  obtain ⟨S', st, d, -, rfl⟩ := acceptCommand_eq_next.1 h
  exact ⟨_, rfl, rfl⟩

/-! ### Status and register file -/

theorem statusCode_injective : Function.Injective statusCode := by
  intro a b h
  cases b with
  | ok => exact statusCode_eq_ok.1 h
  | illegalCmd => exact statusCode_eq_illegalCmd.1 h
  | indexRange => exact statusCode_eq_indexRange.1 h

theorem rspWord_inj {st st' : Status} {d d' : Word} (h : rspWord st d = rspWord st' d') :
    st = st' ∧ d = d' := by
  have hst := congrArg rspStatus h
  have hd := congrArg rspData h
  rw [rspStatus_rspWord, rspStatus_rspWord] at hst
  rw [rspData_rspWord, rspData_rspWord] at hd
  exact ⟨statusCode_injective hst, hd⟩

theorem endWith_inj {s : State} {S₁ S₂ : List Word} {st₁ st₂ : Status} {d₁ d₂ : Word}
    (h : endWith s S₁ st₁ d₁ = endWith s S₂ st₂ d₂) : S₁ = S₂ ∧ st₁ = st₂ ∧ d₁ = d₂ :=
  ⟨congrArg State.S h, rspWord_inj (Option.some.inj (congrArg (Port.outstanding ∘ State.port) h))⟩

section
variable {c : Config} {S S' : List Word} {w : CmdWord} {st : Status} {d : Word}

/-- What an effect leaves of the register file: its length, and all of it unless OK. The outcome it
has from an idle state is one of those of `exec_next`. -/
theorem wordEffect_some (h : wordEffect c S w = some (S', st, d)) :
    (S'.length = S.length ∨ S'.length = 2 * c.n) ∧ (st ≠ .ok → d = 0#32 ∧ S' = S) := by
  have hacc := acceptCommand_eq_next (s := { State.resetOf c with S := S }).2 ⟨S', st, d, h, rfl⟩
  obtain ⟨i, -, hexec⟩ | ⟨r, -, heq⟩ := acceptCommand_next hacc
  · obtain ⟨S₁, st₁, d₁, heq, hlen, hbad⟩ | ⟨r, heq⟩ := exec_next hexec
    · obtain ⟨rfl, rfl, rfl⟩ := endWith_inj heq
      exact ⟨hlen, hbad⟩
    · exact absurd (congrArg State.port heq) (by simp)
  · obtain ⟨rfl, -, rfl⟩ := endWith_inj heq
    exact ⟨.inl rfl, fun _ => ⟨rfl, rfl⟩⟩

/-- On a register file and tables of the right length every command word has an effect, which
leaves 2·N words and answers a legal response. -/
theorem wordEffect_completes (hc : c.WF) (hS : S.length = 2 * c.n) (w : CmdWord) :
    ∃ S' st d, wordEffect c S w = some (S', st, d) ∧ S'.length = 2 * c.n ∧
      rspLegal (rspWord st d) := by
  obtain ⟨t, ht⟩ := acceptCommand_completes w (s := { State.resetOf c with S := S }) hc hS
  obtain ⟨S', st, d, heff, -⟩ := acceptCommand_eq_next.1 ht
  obtain ⟨hlen, hbad⟩ := wordEffect_some heff
  exact ⟨S', st, d, heff, hlen.elim (·.trans hS) id, rspLegal_rspWord fun hne => (hbad hne).1⟩

/-- R114: the decoder decides ILLEGAL_CMD, and after it the range check decides INDEX_RANGE. -/
theorem wordEffect_status (h : wordEffect c S w = some (S', st, d)) :
    (st = .illegalCmd ↔ ∃ e, decodeCommand w = .error e) ∧
    (st = .indexRange ↔ ∃ k, 2 * c.n ≤ k ∧
      (decodeCommand w = .ok (.rds k) ∨ ∃ v, decodeCommand w = .ok (.wrs k v))) := by
  cases hd : decodeCommand w with
  | error r =>
    rw [wordEffect_of_error hd] at h
    cases h
    simp
  | ok i =>
    rw [wordEffect_of_ok hd] at h
    cases i with
    | filt x =>
      obtain ⟨_, _, heq⟩ := Option.map_eq_some_iff.1 h
      cases heq
      simp
    | init =>
      cases h
      simp
    | rds k =>
      rw [commandEffect] at h
      split at h
      · cases h
        simp_all
      · obtain ⟨_, _, heq⟩ := Option.map_eq_some_iff.1 h
        cases heq
        simp_all
    | wrs k v =>
      rw [commandEffect] at h
      split at h
      · cases h
        simp_all
      · obtain ⟨_, _, heq⟩ := Option.map_eq_some_iff.1 h
        cases heq
        simp_all
    | macb a x b => cases h
    | maca a x b => cases h

end

/-- Settles O31: the effect of the word completes, and its status is the decoder's or that of the
range check. -/
theorem oneStatusInFixedOrder : Obligations.OneStatusInFixedOrder := by
  intro s w ⟨hc, hS, _⟩
  obtain ⟨S', st, d, heff, -, hlegal⟩ := wordEffect_completes hc hS w
  have hacc := acceptCommand_eq_next.2 ⟨S', st, d, heff, rfl⟩
  obtain ⟨hillegal, hrange⟩ := wordEffect_status heff
  refine ⟨endWith s S' st d, rspWord st d, hacc, rfl, hlegal, ?_, ?_, fun hne => ?_⟩
  · rw [rspStatus_rspWord, statusCode_eq_illegalCmd, hillegal]
  · rw [rspStatus_rspWord, statusCode_eq_indexRange, hrange]
  · rw [rspStatus_rspWord, Ne, statusCode_eq_ok] at hne
    obtain ⟨-, rfl⟩ := (wordEffect_some heff).2 hne
    exact endsWith_of_next hacc rfl

/-! ### The transaction-level machine -/

/-- R118: a transaction is the effect of its word, answered. -/
theorem transact_of_wordEffect {c : Config} {S S' : List Word} {w : CmdWord} {st : Status}
    {d : Word} (h : wordEffect c S w = some (S', st, d)) :
    transact c S w = some (S', rspWord st d) := by
  rw [transact, acceptCommand_eq_next.2 ⟨S', st, d, h, rfl⟩]
  rfl

theorem transactAll_cons_of_some {c : Config} {S S' S'' : List Word} {w : CmdWord}
    {ws : List CmdWord} {r : RspWord} {rs : List RspWord} (h : transact c S w = some (S', r))
    (hs : transactAll c S' ws = some (S'', rs)) :
    transactAll c S (w :: ws) = some (S'', r :: rs) := by
  simp only [transactAll, h, hs]

/-- Settles O32, by induction on the words: each transaction leaves 2·N words for the next. -/
theorem engineNeverLocksUp : Obligations.EngineNeverLocksUp := by
  intro c S ws hc hS
  induction ws generalizing S with
  | nil => exact ⟨S, [], rfl, rfl, hS, fun r hr => absurd hr List.not_mem_nil⟩
  | cons w ws ih =>
    obtain ⟨S', st, d, heff, hS', hlegal⟩ := wordEffect_completes hc hS w
    obtain ⟨S'', rs, hall, hlen, hS'', hrs⟩ := ih S' hS'
    exact ⟨S'', rspWord st d :: rs, transactAll_cons_of_some (transact_of_wordEffect heff) hall,
      congrArg Nat.succ hlen, hS'', List.forall_mem_cons.2 ⟨hlegal, hrs⟩⟩

/-! ### Writes read back -/

/-- R104: on a register file that holds the index, a write in range completes. -/
theorem exec_wrs_of_lt {s : State} {k : Nat} (v : Word) (hk : k < 2 * s.cfg.n)
    (hS : k < s.S.length) : exec (.wrs k v) s = .next (endWith s (s.S.set k v) .ok 0#32) :=
  exec_wrs_of_writeS hk (writeS_of_lt hS)

/-- Settles O22: the read in the written register file finds the value written or the old word. -/
theorem rdsReturnsTheLatestWrite : Obligations.RdsReturnsTheLatestWrite := by
  intro s t k j v ⟨_, hS, _⟩ hk hj h
  have hkS : k < s.S.length := hk.trans_eq hS.symm
  have hjS : j < s.S.length := hj.trans_eq hS.symm
  obtain rfl := Host.Outcome.next.inj ((exec_wrs_of_lt v hk hkS).symm.trans h)
  have hread : readS (s.S.set k v) j = some (if j = k then v else s.S[j]) := by
    split
    · next hjk =>
      subst hjk
      exact readS_writeS_same (writeS_of_lt hjS)
    · next hjk => exact (readS_writeS_other (writeS_of_lt hkS) hjk).trans (readS_of_lt hjS)
  exact ⟨s.S[j], _, List.getElem?_eq_getElem hjS, exec_rds_of_readS hj hread, rfl⟩

/-- Words written from index `p` up to the end of the register file replace all from there. -/
theorem execAll_wrs_from (L : List Word) (p : Nat) {t : State} (hlen : t.S.length = p + L.length)
    (hn : p + L.length ≤ 2 * t.cfg.n) :
    ∃ u, execAll ((L.zipIdx p).map fun q => Instr.wrs q.2 q.1) t = .next u ∧
      u.S = t.S.take p ++ L ∧ u.cfg = t.cfg := by
  induction L generalizing p t with
  | nil =>
    have htake : t.S.take p = t.S := List.take_of_length_le hlen.le
    exact ⟨t, rfl, by rw [htake, List.append_nil], rfl⟩
  | cons v L ih =>
    rw [List.length_cons] at hlen hn
    have hexec := exec_wrs_of_lt (s := t) v (show p < 2 * t.cfg.n by omega)
      (show p < t.S.length by omega)
    obtain ⟨u, hu, huS, hucfg⟩ := ih (p + 1) (t := endWith t (t.S.set p v) .ok 0#32)
      (by rw [endWith_S, List.length_set]; omega) (by rw [endWith_cfg]; omega)
    refine ⟨u, (execAll_cons_of_next hexec).trans hu, ?_, hucfg⟩
    rw [huS, endWith_S, List.take_add_one, List.take_set_of_le le_rfl,
      List.getElem?_set_self (by omega)]
    exact List.append_assoc ..

/-- Settles O23: the words of `s` written from index 0 replace the whole register file. -/
theorem snapshotAndRestore : Obligations.SnapshotAndRestore := by
  intro s t ⟨_, hsS, _⟩ ⟨_, htS, _⟩ hcfg
  rw [hcfg] at htS
  obtain ⟨u, hu, huS, hucfg⟩ := execAll_wrs_from s.S 0 (t := t) (by omega) (by rw [hcfg]; omega)
  exact ⟨u, hu, huS, hucfg.trans hcfg⟩

end Sys2Proof.Machine
end

section
/-! SUPPORT. What every step keeps (R9, R26, R48), and the statements of the invariant and of
totality settled with them. -/

namespace Sys2Proof.Machine

/-! ### The configuration and the inputs to come -/

theorem exec_cfg_inputs {i : Instr} {s t : State} (h : exec i s = .next t) :
    t.cfg = s.cfg ∧ t.inputs = s.inputs := by
  obtain ⟨S', st, d, rfl, -⟩ | ⟨r, rfl⟩ := exec_next h <;> exact ⟨rfl, rfl⟩

theorem acceptCommand_cfg_inputs {w : CmdWord} {s t : State} (h : acceptCommand w s = .next t) :
    t.cfg = s.cfg ∧ t.inputs = s.inputs := by
  obtain ⟨S', st, d, -, rfl⟩ := acceptCommand_eq_next.1 h
  exact ⟨rfl, rfl⟩

theorem portEdge_cfg_inputs {p : PortSample} {s t : State} (h : portEdge p s = .next t) :
    t.cfg = s.cfg ∧ t.inputs = s.inputs := by
  obtain ⟨-, rfl⟩ | ⟨-, -, -, hacc⟩ | ⟨-, -, -, rfl⟩ | ⟨-, -, -, rfl⟩ | ⟨-, -, -, rfl⟩ |
    ⟨-, left, r, -, rfl⟩ := portEdge_next h
  · exact ⟨rfl, rfl⟩
  · exact acceptCommand_cfg_inputs hacc
  all_goals exact ⟨rfl, rfl⟩

theorem stepInput_cfg_inputs {e : Input} {s t : State} (h : stepInput e s = .next t) :
    t.cfg = s.cfg ∧ t.inputs = s.inputs := by
  cases e with
  | edge p => exact portEdge_cfg_inputs h
  | mac op a x c => exact exec_cfg_inputs h

/-- A step keeps the configuration and uses up one input. -/
theorem step_cfg_inputs {s t : State} (h : step s = .next t) :
    t.cfg = s.cfg ∧ t.inputs = s.inputs.tail := by
  obtain ⟨hcfg, hin⟩ := stepInput_cfg_inputs (step_next_wf h).2
  exact ⟨hcfg.trans (nextInput_cfg s), hin.trans (nextInput_inputs s)⟩

/-- Settles O45: every input leaves the configuration, and so does every instruction. -/
theorem configurationNeverChanges : Obligations.ConfigurationNeverChanges :=
  ⟨fun _ _ h => (step_cfg_inputs h).1, fun _ _ _ => exec_cfg_inputs⟩

/-! ### The invariant -/

/-- Settles O47: S is built with 2·N words, and an idle port holds no response. -/
theorem resetIsWellFormed : Obligations.ResetIsWellFormed := by
  have hreset : ∀ c : Config, c.WF → (State.resetOf c).Inv := fun _ hc =>
    ⟨hc, List.length_replicate, rfl⟩
  exact ⟨hreset, hreset Config.ref (by decide)⟩

theorem hardwareReset_inv {s : State} (hc : s.cfg.WF) : (hardwareReset s).Inv :=
  ⟨hc, zeroS_length _, rfl⟩

/-- Every word of S and its response decide whether the end of a command is well formed. -/
theorem endWith_inv {s : State} {S' : List Word} {st : Status} {d : Word} (hc : s.cfg.WF)
    (hS : S'.length = 2 * s.cfg.n) (hlegal : rspLegal (rspWord st d)) : (endWith s S' st d).Inv :=
  ⟨hc, hS, (legal_busy _ _).2 hlegal⟩

section
variable {s t : State}

theorem exec_keeps_inv {i : Instr} (hs : s.Inv) (h : exec i s = .next t) : t.Inv := by
  obtain ⟨hc, hS, hport⟩ := hs
  obtain ⟨S', st, d, rfl, hlen, hbad⟩ | ⟨r, rfl⟩ := exec_next h
  · exact endWith_inv hc (hlen.elim (·.trans hS) id) (rspLegal_rspWord fun hne => (hbad hne).1)
  · exact ⟨hc, hS, hport⟩

theorem acceptCommand_keeps_inv {w : CmdWord} (hs : s.Inv) (h : acceptCommand w s = .next t) :
    t.Inv := by
  obtain ⟨i, -, hexec⟩ | ⟨r, -, rfl⟩ := acceptCommand_next h
  · exact exec_keeps_inv hs hexec
  · obtain ⟨hc, hS, -⟩ := hs
    exact endWith_inv hc hS (rspLegal_rspWord fun _ => rfl)

theorem portEdge_keeps_inv {p : PortSample} (hs : s.Inv) (h : portEdge p s = .next t) : t.Inv := by
  obtain ⟨hc, hS, hport⟩ := hs
  obtain ⟨-, rfl⟩ | ⟨-, -, -, hacc⟩ | ⟨-, -, -, rfl⟩ | ⟨-, -, -, rfl⟩ | ⟨-, -, -, rfl⟩ |
    ⟨-, left, r, hbusy, rfl⟩ := portEdge_next h
  · exact hardwareReset_inv hc
  · exact acceptCommand_keeps_inv ⟨hc, hS, hport⟩ hacc
  · exact ⟨hc, hS, hport⟩
  · exact ⟨hc, hS, rfl⟩
  · exact ⟨hc, hS, hport⟩
  · rw [hbusy] at hport
    exact ⟨hc, hS, hport⟩

theorem nextInput_inv (hs : s.Inv) : (nextInput s).2.Inv := by
  simpa only [State.Inv, nextInput_cfg, nextInput_S, nextInput_port] using hs

/-- R26, R48: the step of the invariant. -/
theorem step_keeps_inv (hs : s.Inv) (h : step s = .next t) : t.Inv := by
  obtain ⟨-, hinput⟩ := step_next_wf h
  cases he : (nextInput s).1 with
  | edge p =>
    rw [he] at hinput
    exact portEdge_keeps_inv (nextInput_inv hs) hinput
  | mac op a x c =>
    rw [he] at hinput
    exact exec_keeps_inv (nextInput_inv hs) hinput

end

/-- Settles O46: a reset, the end of a command, a drive of the MAC unit and every other edge keep
it. -/
theorem stepKeepsStateWellFormed : Obligations.StepKeepsStateWellFormed :=
  fun _ _ => step_keeps_inv

/-! ### Totality -/

theorem stepInput_completes (e : Input) {s : State} (hc : s.cfg.WF)
    (hS : s.S.length = 2 * s.cfg.n) : ∃ t, stepInput e s = .next t := by
  cases e with
  | edge p => exact portEdge_completes p fun w => acceptCommand_completes w hc hS
  | mac op a x c => exact exec_completes _ hc hS

/-- Settles O33: on a register file and tables of the right length every input completes. -/
theorem stepIsTotalOnWellFormedStates : Obligations.StepIsTotalOnWellFormedStates := by
  intro s hs
  obtain ⟨hc, hS, -⟩ := nextInput_inv hs
  rw [step_of_wf hs.1]
  exact stepInput_completes _ hc hS

/-- Settles O34: the step checks the configuration first. -/
theorem configurationOutsideTheRangeIsRefused :
    Obligations.ConfigurationOutsideTheRangeIsRefused :=
  fun _ h => if_neg h

end Sys2Proof.Machine
end

section
/-! SUPPORT. What an edge does in each state of the host port (R44, R124), what a drive of the MAC
unit does (R55), runs of steps, and the statements about a step settled with them. -/

namespace Sys2Proof.Machine

open Sys2Proof.Spec

/-! ### One step -/

section
variable {s : State} {p : PortSample} {rest : List Input} (hc : s.cfg.WF)
  (hin : s.inputs = .edge p :: rest)
include hc hin

theorem step_of_edge : step s = portEdge p { s with inputs := rest } := by
  rw [step_of_wf hc, nextInput_cons hin, stepInput]

theorem step_of_reset (hr : p.rst = true) :
    step s = .next (hardwareReset { s with inputs := rest }) := by
  rw [step_of_edge hc hin, portEdge, if_pos hr]

variable (hr : p.rst = false)
include hr

theorem step_of_accept (hp : s.port = .idle) (hv : p.cmdValid = true) :
    step s = acceptCommand p.cmd { s with inputs := rest } := by
  simp [step_of_edge hc hin, portEdge, hr, hp, hv]

theorem step_of_wait (hp : s.port = .idle) (hv : p.cmdValid = false) :
    step s = .next { s with inputs := rest } := by
  simp [step_of_edge hc hin, portEdge, hr, hp, hv]

theorem step_of_hold {r : RspWord} (hp : s.port = .busy 0 r) (hv : p.rspReady = false) :
    step s = .next { s with inputs := rest } := by
  simp [step_of_edge hc hin, portEdge, hr, hp, hv]

theorem step_of_take {r : RspWord} (hp : s.port = .busy 0 r) (hv : p.rspReady = true) :
    step s = .next { s with inputs := rest, port := .idle } := by
  simp [step_of_edge hc hin, portEdge, hr, hp, hv]

theorem step_of_count {left : Nat} {r : RspWord} (hp : s.port = .busy (left + 1) r) :
    step s = .next { s with inputs := rest, port := .busy left r } := by
  simp [step_of_edge hc hin, portEdge, hr, hp]

end

theorem step_of_mac {s : State} {op : BitVec 1} {a x : Word} {c : Coef} {rest : List Input}
    (hc : s.cfg.WF) (hin : s.inputs = .mac op a x c :: rest) :
    step s = exec (decodeMacOp op a x c) { s with inputs := rest } := by
  rw [step_of_wf hc, nextInput_cons hin, stepInput]

theorem acceptCommand_of_ok {w : CmdWord} {i : Instr} (h : decodeCommand w = .ok i) (s : State) :
    acceptCommand w s = exec i s := by
  rw [acceptCommand, h]

/-- Settles O35: an idle engine accepts the word and runs what it decodes to. -/
theorem stepRunsTheDecodedCommand : Obligations.StepRunsTheDecodedCommand := by
  intro s p rest i hc hin hr hv hp hd
  rw [step_of_accept hc hin hr hp hv, acceptCommand_of_ok hd]

/-- Settles O36: an idle engine accepts the word and raises the decoder's refusal. -/
theorem stepAnswersAReservedWord : Obligations.StepAnswersAReservedWord := by
  intro s p rest r hc hin hr hv hp hd
  rw [step_of_accept hc hin hr hp hv, acceptCommand_of_error hd]
  exact endsWith_of_next (st := .illegalCmd) rfl rspWord_illegalCmd

/-- Settles O38: the select bit is decoded and its operation run. -/
theorem stepRunsTheDrivenMacOperation : Obligations.StepRunsTheDrivenMacOperation :=
  fun _ _ _ _ _ _ => step_of_mac

/-- Settles O40: one edge in each of the four states of the handshake. -/
theorem handshakeHoldsTheResponse : Obligations.HandshakeHoldsTheResponse := by
  intro s p rest hc hin hr
  refine ⟨fun hp hv => ?_, fun left r hp => ?_, fun r hp hv => ?_, fun r hp hv => ?_⟩
  · exact ⟨by rw [State.cmdReady, hp], by rw [State.rspValid, hp], step_of_wait hc hin hr hp hv⟩
  · exact ⟨by rw [State.cmdReady, hp], by rw [State.rspValid, hp], step_of_count hc hin hr hp⟩
  · exact ⟨by rw [State.cmdReady, hp], by rw [State.rspValid, hp], step_of_hold hc hin hr hp hv⟩
  · exact ⟨by rw [State.cmdReady, hp], by rw [State.rspValid, hp],
      by simp [takesNow, nextInput_cons hin, State.rspValid, hr, hv, hp],
      step_of_take hc hin hr hp hv⟩

/-- Settles O43: the edge is hardware reset, and its handshakes count for nothing. -/
theorem resetAbandonsTheCommand : Obligations.ResetAbandonsTheCommand := by
  intro s p rest hc hin hr
  exact ⟨by simp [takesNow, nextInput_cons hin, hr], by simp [acceptsNow, nextInput_cons hin, hr],
    _, step_of_reset hc hin hr, rfl, rfl, rfl, rfl, rfl, rfl⟩

/-- Settles O44: both leave `zeroS` and the configuration they found. -/
theorem resetAndInitLeaveTheSameState : Obligations.ResetAndInitLeaveTheSameState := by
  intro s t u p rest hin hr ht hu
  obtain ⟨hc, -⟩ := step_next_wf ht
  obtain rfl := Host.Outcome.next.inj ((step_of_reset hc hin hr).symm.trans ht)
  obtain rfl := Host.Outcome.next.inj ((exec_init s).symm.trans hu)
  exact ⟨rfl, rfl, rfl⟩

/-! ### The fetch aid -/

/-- What a table word is: a select bit where the row has at most one byte, else a command word. -/
theorem tableWord_some {nbits w : Nat} {e : Encoded} (h : tableWord nbits w = some e) :
    (nbits ≤ 8 ∧ e = .macOp (BitVec.ofNat 1 w) 0#32 0#32 0#16) ∨
    (¬nbits ≤ 8 ∧ e = .command (BitVec.ofNat 48 w)) := by
  unfold tableWord at h
  split at h
  · next hn =>
    obtain ⟨-, he⟩ := Option.ite_none_right_eq_some.1 h
    exact .inl ⟨hn, (Option.some.inj he).symm⟩
  · next hn =>
    obtain ⟨-, he⟩ := Option.ite_none_right_eq_some.1 h
    exact .inr ⟨hn, (Option.some.inj he).symm⟩

/-- The instruction of a table word is what its encoding decodes to. -/
theorem decodeTableWord_some {nbits w : Nat} {i : Instr} (h : decodeTableWord nbits w = some i) :
    ∃ e, tableWord nbits w = some e ∧ decode e = .ok i := by
  unfold decodeTableWord at h
  split at h
  · next e he =>
    refine ⟨e, he, ?_⟩
    cases hd : decode e with
    | ok j =>
      rw [hd] at h
      exact congrArg Except.ok (Option.some.inj h)
    | error r =>
      rw [hd] at h
      cases h
  · cases h

/-- Settles O39: the word is put first in `inputs`, where the next step drives the MAC unit with it
or accepts it on the idle port. -/
theorem presentedTableWordRunsNext : Obligations.PresentedTableWordRunsNext := by
  intro s nbits w i hc h
  obtain ⟨e, he, hd⟩ := decodeTableWord_some h
  obtain ⟨hn, rfl⟩ | ⟨hn, rfl⟩ := tableWord_some he
  · rw [State.withFetchWord, presentTableWord, if_pos hn, if_pos hn]
    exact Eq.trans (step_of_mac hc rfl) (congrArg (exec · s) (Except.ok.inj hd))
  · rw [State.withFetchWord, presentTableWord, if_neg hn, if_neg hn]
    exact Eq.trans (step_of_accept hc rfl rfl rfl rfl) (acceptCommand_of_ok hd _)

/-! ### Runs of steps -/

theorem run_succ_of_next {s t : State} (h : step s = .next t) (m : Nat) :
    Host.Core.run core (m + 1) s = Host.Core.run core m t := by
  have hcore : core.step s = .next t := h
  simp only [Host.Core.run, hcore]

/-- Settles O37: an edge with nothing presented leaves an idle engine as it is. -/
theorem idleEngineRetainsItsState : Obligations.IdleEngineRetainsItsState := by
  intro s m hc hin hp
  have hstep : step s = .next s := by
    simp [step_of_wf hc, nextInput_nil hin, stepInput, portEdge, quietSample, hp]
  induction m with
  | zero => rfl
  | succ m ih => rw [run_succ_of_next hstep, ih]

/-- A step with no reset in sight counts down to the response, whether or not an edge is listed. -/
theorem step_counts_down {s : State} {left : Nat} {r : RspWord} (hc : s.cfg.WF)
    (hp : s.port = .busy (left + 1) r)
    (hin : ∀ e ∈ s.inputs.take (left + 1), ∃ p, e = .edge p ∧ p.rst = false) :
    step s = .next { s with inputs := s.inputs.tail, port := .busy left r } := by
  cases hlist : s.inputs with
  | nil =>
    simp [step_of_wf hc, nextInput_nil hlist, stepInput, portEdge, quietSample, hp, hlist]
  | cons e rest =>
    obtain ⟨p, rfl, hr⟩ := hin e (by simp [hlist])
    exact step_of_count hc hlist hr hp

/-- Settles O41, by induction on the edges left. -/
theorem responseIsPresentedWithinItsLatency : Obligations.ResponseIsPresentedWithinItsLatency := by
  intro s left r hc hp hin
  induction left generalizing s with
  | zero => exact ⟨s, rfl, hp, by rw [State.rspValid, hp], rfl, rfl⟩
  | succ left ih =>
    have hstep := step_counts_down hc hp hin
    have htail : (s.inputs.take (left + 1)).tail = s.inputs.tail.take left :=
      List.tail_take_eq_take_tail _ _
    obtain ⟨t, ht, htp, htv, htS, htin⟩ :=
      ih { s with inputs := s.inputs.tail, port := .busy left r } hc rfl fun e he =>
        hin e (List.mem_of_mem_tail (htail ▸ he))
    exact ⟨t, (run_succ_of_next hstep left).trans ht, htp, htv, htS, by simp [htin]⟩

end Sys2Proof.Machine
end

section
/-! SUPPORT. What the host sees of a step as a transaction (R41, R44), the steps of one engine among
several (R122), and the statements about whole runs settled with them. -/

namespace Sys2Proof.Machine

/-! ### The responses of a run -/

section
variable {c : Config} {S S' S'' : List Word} {rs rs' : List RspWord}

theorem transactAll_append {ws ws' : List CmdWord} (h : transactAll c S ws = some (S', rs))
    (h' : transactAll c S' ws' = some (S'', rs')) :
    transactAll c S (ws ++ ws') = some (S'', rs ++ rs') := by
  induction ws generalizing S rs with
  | nil =>
    cases h
    exact h'
  | cons w ws ih =>
    rw [transactAll] at h
    split at h
    · cases h
    · next T r hw =>
      split at h
      · cases h
      · next T' rs₁ hws =>
        cases h
        exact transactAll_cons_of_some hw (ih hws)

end

/-- What the host sees of one step, in the transaction-level machine: the command accepted, executed
on S, leaves S; the response taken and the one still outstanding are the one outstanding before and
that of the command accepted. -/
def StepSeen (s t : State) : Prop :=
  ∃ rs, transactAll s.cfg s.S (acceptsNow s).toList = some (t.S, rs) ∧
    (takesNow s).toList ++ t.port.outstanding.toList = s.port.outstanding.toList ++ rs

/-- A step that accepts nothing and leaves S is seen when it takes what is no longer outstanding. -/
theorem stepSeen_of_no_command {s t : State} (hacc : acceptsNow s = none) (hS : t.S = s.S)
    (hrsp : (takesNow s).toList ++ t.port.outstanding.toList = s.port.outstanding.toList) :
    StepSeen s t := by
  refine ⟨[], ?_, by rw [hrsp, List.append_nil]⟩
  rw [hacc, hS]
  rfl

/-- A command accepted on an idle engine is seen as its transaction. -/
theorem stepSeen_of_accept {s s₀ t : State} {w : CmdWord} (hacc : acceptsNow s = some w)
    (htake : takesNow s = none) (hidle : s.port = .idle) (hcfg : s₀.cfg = s.cfg) (hS : s₀.S = s.S)
    (h : acceptCommand w s₀ = .next t) : StepSeen s t := by
  obtain ⟨S', st, d, heff, rfl⟩ := acceptCommand_eq_next.1 h
  rw [hcfg, hS] at heff
  refine ⟨[rspWord st d], ?_, ?_⟩
  · rw [hacc]
    exact transactAll_cons_of_some (transact_of_wordEffect heff) rfl
  · rw [htake, hidle]
    rfl

/-- R83: a drive of the MAC unit changes its output only. -/
theorem exec_decodeMacOp (op : BitVec 1) (a x : Word) (c : Coef) (s : State) :
    ∃ r, exec (decodeMacOp op a x c) s = .next { s with macR := r } := by
  obtain rfl | rfl := BitVec.eq_zero_or_eq_one op <;> exact ⟨_, rfl⟩

/-- R44: without reset every step is seen as the transaction-level machine has it. -/
theorem step_seen {s t : State} (hr : (nextInput s).1.noReset = true) (h : step s = .next t) :
    StepSeen s t := by
  obtain ⟨-, hinput⟩ := step_next_wf h
  cases he : (nextInput s).1 with
  | mac op a x c =>
    rw [he] at hinput
    obtain ⟨r, hmac⟩ := exec_decodeMacOp op a x c (nextInput s).2
    obtain rfl := Host.Outcome.next.inj (hmac.symm.trans hinput)
    exact stepSeen_of_no_command (by simp [acceptsNow, he]) (nextInput_S s)
      (by simp [takesNow, he])
  | edge p =>
    rw [he] at hinput hr
    have hrst : p.rst = false := by simpa [Input.noReset] using hr
    obtain ⟨hrst', -⟩ | ⟨-, hp, hv, hacc⟩ | ⟨-, hp, hv, rfl⟩ | ⟨-, ⟨r, hp⟩, hv, rfl⟩ |
      ⟨-, ⟨r, hp⟩, hv, rfl⟩ | ⟨-, left, r, hp, rfl⟩ := portEdge_next hinput
    · exact absurd hrst' (by simp [hrst])
    all_goals rw [nextInput_port] at hp
    · exact stepSeen_of_accept (by simp [acceptsNow, he, hrst, hv, State.cmdReady, hp])
        (by simp [takesNow, he, State.rspValid, hp]) hp (nextInput_cfg s) (nextInput_S s) hacc
    · exact stepSeen_of_no_command (by simp [acceptsNow, he, hv]) (nextInput_S s)
        (by simp [takesNow, he, State.rspValid, hp])
    · exact stepSeen_of_no_command (by simp [acceptsNow, he, State.cmdReady, hp]) (nextInput_S s)
        (by simp [takesNow, he, State.rspValid, hrst, hv, hp])
    · exact stepSeen_of_no_command (by simp [acceptsNow, he, State.cmdReady, hp]) (nextInput_S s)
        (by simp [takesNow, he, hv])
    · exact stepSeen_of_no_command (by simp [acceptsNow, he, State.cmdReady, hp]) (nextInput_S s)
        (by simp [takesNow, he, State.rspValid, hp])

/-- A run's first step and the rest of it. -/
theorem observe_succ_some {m : Nat} {s t : State} {cs : List CmdWord} {rs : List RspWord}
    (h : observe (m + 1) s = some (cs, rs, t)) :
    ∃ u cs' rs', step s = .next u ∧ observe m u = some (cs', rs', t) ∧
      cs = (acceptsNow s).toList ++ cs' ∧ rs = (takesNow s).toList ++ rs' := by
  rw [observe] at h
  split at h
  · next u hu =>
    split at h
    · next cs' rs' t' hm =>
      cases h
      exact ⟨u, cs', rs', hu, hm, rfl, rfl⟩
    · cases h
  · cases h
  · cases h

theorem nextInput_noReset {s : State} (h : ∀ e ∈ s.inputs, e.noReset = true) :
    (nextInput s).1.noReset = true := by
  cases hlist : s.inputs with
  | nil =>
    rw [nextInput_nil hlist]
    rfl
  | cons e rest =>
    rw [nextInput_cons hlist]
    exact h e (hlist ▸ List.mem_cons_self)

/-- Settles O48, by induction on the steps: each is seen as a transaction or none, and these
compose. -/
theorem oneResponsePerCommandInOrder : Obligations.OneResponsePerCommandInOrder := by
  intro m s t cs rs hs hr hobs
  induction m generalizing s cs rs with
  | zero =>
    cases hobs
    exact ⟨[], rfl, (List.append_nil _).symm⟩
  | succ m ih =>
    obtain ⟨u, cs', rs', hu, hm, rfl, rfl⟩ := observe_succ_some hobs
    obtain ⟨now, hnow, hout⟩ := step_seen (nextInput_noReset hr) hu
    obtain ⟨hcfg, hin⟩ := step_cfg_inputs hu
    have hru : ∀ e ∈ u.inputs, e.noReset = true := fun e he =>
      hr e (List.mem_of_mem_tail (hin ▸ he))
    obtain ⟨later, hlater, hout'⟩ := ih u cs' rs' (step_keeps_inv hs hu) hru hm
    rw [hcfg] at hlater
    refine ⟨now ++ later, transactAll_append hnow hlater, ?_⟩
    rw [List.append_assoc, hout', ← List.append_assoc, hout, List.append_assoc]

/-! ### Several engines -/

theorem stepEngine_some {j : Nat} {sys sys' : List State} (h : stepEngine j sys = some sys') :
    ∃ s t, sys[j]? = some s ∧ step s = .next t ∧ sys' = sys.set j t := by
  unfold stepEngine at h
  split at h
  · cases h
  · next s hs =>
    split at h
    · next t ht => exact ⟨s, t, hs, ht, (Option.some.inj h).symm⟩
    · cases h
    · cases h

theorem runSystem_cons_some {j : Nat} {js : List Nat} {sys sys' : List State}
    (h : runSystem (j :: js) sys = some sys') :
    ∃ mid, stepEngine j sys = some mid ∧ runSystem js mid = some sys' := by
  rw [runSystem] at h
  split at h
  · next mid hmid => exact ⟨mid, hmid, h⟩
  · cases h

/-- Settles O49, by induction on the schedule: its first step moves one engine and no other. -/
theorem enginesDoNotInterfere : Obligations.EnginesDoNotInterfere := by
  intro sched sys sys' h
  induction sched generalizing sys with
  | nil =>
    cases h
    exact ⟨rfl, fun j s hs => ⟨s, hs, rfl⟩⟩
  | cons j₀ js ih =>
    obtain ⟨mid, hmid, hrest⟩ := runSystem_cons_some h
    obtain ⟨s₀, t₀, hs₀, hstep, rfl⟩ := stepEngine_some hmid
    obtain ⟨hlen, heach⟩ := ih _ hrest
    refine ⟨hlen.trans List.length_set, fun j s hs => ?_⟩
    by_cases hj : j₀ = j
    · subst hj
      obtain rfl := Option.some.inj (hs₀.symm.trans hs)
      obtain ⟨hlt, -⟩ := List.getElem?_eq_some_iff.1 hs₀
      obtain ⟨s', hs', hrun⟩ := heach j₀ t₀ (List.getElem?_set_self hlt)
      exact ⟨s', hs', by rw [List.count_cons_self, run_succ_of_next hstep, hrun]⟩
    · obtain ⟨s', hs', hrun⟩ := heach j s ((List.getElem?_set_ne hj).trans hs)
      exact ⟨s', hs', by rw [List.count_cons_of_ne hj, hrun]⟩

end Sys2Proof.Machine
end
